-- ==== Sys2Proof/Word.lean ====
section
/-! DEFINITION. The byte: the one word type of the block (00_scope.md R7 `BYTE_W`, R9).

Everything the block holds in a register, stores in its buffer or carries on a stream is a byte, an unsigned
integer 0..255, bit 7 most significant (R9). -/

namespace Sys2Proof

/-- A byte of the block: 8 bits (R7 `BYTE_W`, `CHK_W`). -/
abbrev Byte := BitVec 8

end Sys2Proof
end

