-- ==== Sys2Proof/Config.lean ====
section
/-! DEFINITION. The parameters of the block (00_scope.md R7) and the marker bytes (30_encoding.md R61).

The block has no implementation-defined value that an operation could show: `PLEN_W` is open (R7, D14) and the
model's ENCODE takes a byte list of any length instead, and the contents of the buffer after a reset are "no value"
(notes/assumptions/2.md). So no constant of this file is a free value. -/

namespace Sys2Proof.Config

/-- First marker byte, `'$'` (R60, R61). -/
abbrev marker1 : Byte := 0x24
/-- Second marker byte, `'M'` (R60, R61). -/
abbrev marker2 : Byte := 0x4D
/-- Third marker byte of a normal frame, `'<'` (R60, R61). -/
abbrev markerReq : Byte := 0x3C
/-- Third marker byte of an error frame, `'!'` (R60, R61; the code 0x21 is the spec's own from ASCII, G1,
notes/assumptions/1.md). -/
abbrev markerErr : Byte := 0x21

/-- `MARKER_LEN` (R7). -/
abbrev markerLen : Nat := 3
/-- `MAX_PAYLOAD` (R7): the largest payload length. -/
abbrev maxPayload : Nat := 255
/-- `BUF_CAP` (R7, D8, notes/assumptions/8.md): capacity of the scratch payload buffer; the spec's value 255. -/
abbrev bufCap : Nat := 255
/-- `HEADER_LEN` (R7): bytes before the payload. -/
abbrev headerLen : Nat := 5
/-- `FRAME_OVERHEAD` (R7; 6 and not 5, 90_conflicts.md C3): frame bytes that are not payload. -/
abbrev frameOverhead : Nat := 6
/-- `MAX_FRAME` (R7): the longest frame in bytes. -/
abbrev maxFrame : Nat := 261

/-- The third marker byte of a frame with the given error flag (R60). -/
abbrev marker3 (err : Bool) : Byte := if err then markerErr else markerReq

end Sys2Proof.Config
end

