-- ==== Sys2Proof/Syntax.lean ====
section
/-! DEFINITION. The operations of the block: one constructor per row of spec/opcode_table.json (22 rows).

00_scope.md R8 maps "instruction" to one operation of the block. 30_encoding.md R71 gives the five formats: `W` (a whole
wire frame), `S` (the decoder consumes one byte, in one of fourteen forms), `X` (the XOR-fold engine), `E` (the
encoder), `C` (control). A form whose byte is a constant of the table carries no operand. -/

namespace Sys2Proof

/-- One operation of the block (R8, R71). -/
inductive Instr where
  /-- `FRAME.REQ` (R60, R73 `FRAME<`): the bytes of one normal frame, in wire order. The length byte is the payload's
  length; the checksum byte is an operand, so a frame with a wrong checksum can be written too (R70 (b)). -/
  | frameReq (cmd : Byte) (payload : List Byte) (chk : Byte)
  /-- `FRAME.ERR` (R60, R73 `FRAME!`): the same with the error marker. -/
  | frameErr (cmd : Byte) (payload : List Byte) (chk : Byte)
  /-- `IDLE.HIT` (R84): `BYTE(0x24)` in phase `Idle`. -/
  | idleHit
  /-- `IDLE.MISS` (R85): `BYTE(b)` in phase `Idle`, `b != 0x24`. -/
  | idleMiss (b : Byte)
  /-- `SM1.HIT` (R86): `BYTE(0x4D)` in phase `SeekMarker1`. -/
  | sm1Hit
  /-- `SM1.MISS` (R87): `BYTE(b)` in phase `SeekMarker1`, `b != 0x4D`. -/
  | sm1Miss (b : Byte)
  /-- `SM2.REQ` (R88): `BYTE(0x3C)` in phase `SeekMarker2`. -/
  | sm2Req
  /-- `SM2.ERR` (R89): `BYTE(0x21)` in phase `SeekMarker2`. -/
  | sm2Err
  /-- `SM2.MISS` (R90): `BYTE(b)` in phase `SeekMarker2`, any other byte. -/
  | sm2Miss (b : Byte)
  /-- `LEN` (R91): `BYTE(b)` in phase `AwaitLength`. -/
  | len (b : Byte)
  /-- `CMD.NZ` (R92): `BYTE(b)` in phase `AwaitCommand`, `len != 0`. -/
  | cmdNz (b : Byte)
  /-- `CMD.Z` (R93): `BYTE(b)` in phase `AwaitCommand`, `len == 0`. -/
  | cmdZ (b : Byte)
  /-- `PAY.MORE` (R94): `BYTE(b)` in phase `AccumulatePayload`, `idx + 1 < len`. -/
  | payMore (b : Byte)
  /-- `PAY.LAST` (R95): `BYTE(b)` in phase `AccumulatePayload`, `idx + 1 == len`. -/
  | payLast (b : Byte)
  /-- `VFY.OK` (R96): `BYTE(b)` in phase `Verify`, `b == chk`. -/
  | vfyOk (b : Byte)
  /-- `VFY.BAD` (R97): `BYTE(b)` in phase `Verify`, `b != chk`. -/
  | vfyBad (b : Byte)
  /-- `XCLR` (R112): the engine's accumulator is cleared. -/
  | xclr
  /-- `XFOLD(b)` (R113): `b` is folded into the engine's accumulator. -/
  | xfold (b : Byte)
  /-- `XCMP(b)` (R114): `b` is compared with the engine's accumulator. -/
  | xcmp (b : Byte)
  /-- `ENC.OK` (R121): `ENCODE(cmd, payload)` with at most 255 payload bytes. -/
  | encOk (cmd : Byte) (payload : List Byte)
  /-- `ENC.REJ` (R124): `ENCODE(cmd, payload)` with more than 255 payload bytes. -/
  | encRej (cmd : Byte) (payload : List Byte)
  /-- `RESET` (R180). -/
  | reset
  deriving DecidableEq, Repr

end Sys2Proof
end

