-- ==== Sys2Proof/Machine/Types.lean ====
section
/-! DEFINITION. The named alternatives the block and its boundary are made of: the decoder's phases, the events and
results it produces, the requests the host applies, and what the decoder looks at when it classifies a byte. -/

namespace Sys2Proof

/-- The parse phase (10_state.md R23): exactly seven values. The source's `ErrorHeader` is `awaitLength` with the
error flag set (R24, 90_conflicts.md C1). -/
inductive Phase where
  | idle
  | seekMarker1
  | seekMarker2
  | awaitLength
  | awaitCommand
  | accumulatePayload
  | verify
  deriving DecidableEq, Repr

/-- The 3-bit code of a phase (R23, D3): the source's order; code 7 is never held. -/
def Phase.code : Phase → BitVec 3
  | .idle => 0
  | .seekMarker1 => 1
  | .seekMarker2 => 2
  | .awaitLength => 3
  | .awaitCommand => 4
  | .accumulatePayload => 5
  | .verify => 6

/-- An event of the decoder (60_exceptions.md R150 to R153). The payload is a value, not a reference (R49, R191). -/
inductive Event where
  | frameValid (cmd len : Byte) (payload : List Byte) (err : Bool)
  | checksumError (cmd : Byte)
  deriving DecidableEq, Repr

/-- What one operation hands to the outside (R185: the events and the ENCODE results of a run, in order). -/
inductive Result where
  /-- A decoder event (R150). -/
  | event (e : Event)
  /-- An accepted ENCODE: the frame emitted (R121, R184 `tx_data`). -/
  | encoded (frame : List Byte)
  /-- A rejected ENCODE (R124, R155; R184 `enc_reject`). -/
  | payloadTooLarge
  /-- The truth value of `XCMP` (R114), where that operation is run by itself. -/
  | compared (equal : Bool)
  deriving DecidableEq, Repr

/-- One thing the host applies to the block (R8 "program", R73, R184). The engine's operations are internal and have no
request (41_xor_engine.md: "the host never issues them"). -/
inductive Request where
  /-- `BYTE(b)`: `rx_valid` with `rx_data = b` (R80, R184). -/
  | rx (b : Byte)
  /-- `FRAME<` or `FRAME!` (R73): the bytes of one wire frame handed over together. -/
  | frame (bytes : List Byte)
  /-- `ENCODE(cmd, payload)` (R120, R184 `enc_cmd`, `enc_plen`, `enc_payload`). -/
  | enc (cmd : Byte) (payload : List Byte)
  /-- `RESET`: `rst` asserted (R180, R184). -/
  | rst
  /-- `rst` and `rx_valid` asserted together (R184: RESET is performed and the byte is discarded). -/
  | rstRx (b : Byte)
  deriving DecidableEq, Repr

/-- What the byte decoder looks at beside the byte (R69: the phase, and for three phases a register). -/
structure View where
  phase : Phase
  len : Byte
  idx : Byte
  chk : Byte
  deriving DecidableEq, Repr

/-- The answer of the request decoder. -/
inductive Decoded where
  /-- The next operation, and the requests that what is left of its request amounts to. -/
  | run (i : Instr) (more : List Request)
  /-- The request carries no byte and asks for no operation. -/
  | nothing
  /-- No row of R69 applies: the registers are not those of a session (R25 is broken). -/
  | noRow
  deriving DecidableEq, Repr

end Sys2Proof
end

