-- ==== Sys2Proof/WellFormed.lean ====
section
/-! DEFINITION. Which operations of `Instr` are well-formed: the conditions that spec/opcode_table.json and
30_encoding.md R69, R72 put on the operands alone. The conditions on the decoder's registers (the phase, `len`, `idx`,
`chk`) select the form when a byte arrives; they are Decode.lean's. -/

namespace Sys2Proof

/-- The conditions on the operands of one operation (R60 and R62 for frames, R69 for byte classes, R72 for ENCODE). -/
def Instr.wellFormed : Instr → Bool
  | .frameReq _ payload _ => payload.length ≤ Config.maxPayload
  | .frameErr _ payload _ => payload.length ≤ Config.maxPayload
  | .idleHit => true
  | .idleMiss b => b ≠ Config.marker1
  | .sm1Hit => true
  | .sm1Miss b => b ≠ Config.marker2
  | .sm2Req => true
  | .sm2Err => true
  | .sm2Miss b => b ≠ Config.markerReq ∧ b ≠ Config.markerErr
  | .len _ => true
  | .cmdNz _ => true
  | .cmdZ _ => true
  | .payMore _ => true
  | .payLast _ => true
  | .vfyOk _ => true
  | .vfyBad _ => true
  | .xclr => true
  | .xfold _ => true
  | .xcmp _ => true
  | .encOk _ payload => payload.length ≤ Config.maxPayload
  | .encRej _ payload => Config.maxPayload < payload.length
  | .reset => true

end Sys2Proof
end

