-- ==== Sys2Proof/Decode.lean ====
section
/-! DEFINITION. From bytes and requests to operations, and back: the byte map of 30_encoding.md R69, the wire frames of
R60, the requests of the host, and the encoder of each.

The block decodes an input byte only together with its phase (R69), so the byte decoder takes a `View`. The
operations of formats `X`, `E` and `C` have no bit pattern (R71); `E` and `C` come as requests. -/

namespace Sys2Proof

/-! ## Bytes -/

/-- The complete byte map (R69): one branch per phase and class. `none` only where no row applies, which is in phase
`AccumulatePayload` with `idx >= len`, outside R25. -/
def decodeByte (v : View) (b : Byte) : Option Instr :=
  match v.phase with
  | .idle => if b = Config.marker1 then some .idleHit else some (.idleMiss b)
  | .seekMarker1 => if b = Config.marker2 then some .sm1Hit else some (.sm1Miss b)
  | .seekMarker2 =>
    if b = Config.markerReq then some .sm2Req
    else if b = Config.markerErr then some .sm2Err
    else some (.sm2Miss b)
  | .awaitLength => some (.len b)
  | .awaitCommand => if v.len = 0 then some (.cmdZ b) else some (.cmdNz b)
  | .accumulatePayload =>
    if v.idx.toNat + 1 < v.len.toNat then some (.payMore b)
    else if v.idx.toNat + 1 = v.len.toNat then some (.payLast b)
    else none
  | .verify => if b = v.chk then some (.vfyOk b) else some (.vfyBad b)

/-- The condition column of an `S` row of spec/opcode_table.json (R71 `cond`). -/
inductive RowCond where
  | always | lenNonzero | lenZero | idxMore | idxLast | eqChk | neChk
  deriving DecidableEq, Repr

/-- Whether a row's condition holds (R71). -/
def RowCond.holds (v : View) (b : Byte) : RowCond → Bool
  | .always => true
  | .lenNonzero => v.len ≠ 0
  | .lenZero => v.len = 0
  | .idxMore => v.idx.toNat + 1 < v.len.toNat
  | .idxLast => v.idx.toNat + 1 = v.len.toNat
  | .eqChk => b = v.chk
  | .neChk => b ≠ v.chk

/-- An `S` row of spec/opcode_table.json (R71). -/
structure ByteRow where
  phase : Phase
  pattern : Byte
  mask : Byte
  priority : Nat
  cond : RowCond
  instr : Byte → Instr

/-- The rows of the three marker-seeking phases, as spec/opcode_table.json lists them. -/
def markerRows : List ByteRow :=
  [ ⟨.idle, 0x24, 0xFF, 0, .always, fun _ => .idleHit⟩,
    ⟨.idle, 0x00, 0x00, 1, .always, .idleMiss⟩,
    ⟨.seekMarker1, 0x4D, 0xFF, 0, .always, fun _ => .sm1Hit⟩,
    ⟨.seekMarker1, 0x00, 0x00, 1, .always, .sm1Miss⟩,
    ⟨.seekMarker2, 0x3C, 0xFF, 0, .always, fun _ => .sm2Req⟩,
    ⟨.seekMarker2, 0x21, 0xFF, 0, .always, fun _ => .sm2Err⟩,
    ⟨.seekMarker2, 0x00, 0x00, 1, .always, .sm2Miss⟩ ]

/-- The rows of the other four phases. -/
def frameRows : List ByteRow :=
  [ ⟨.awaitLength, 0x00, 0x00, 0, .always, .len⟩,
    ⟨.awaitCommand, 0x00, 0x00, 0, .lenNonzero, .cmdNz⟩,
    ⟨.awaitCommand, 0x00, 0x00, 0, .lenZero, .cmdZ⟩,
    ⟨.accumulatePayload, 0x00, 0x00, 0, .idxMore, .payMore⟩,
    ⟨.accumulatePayload, 0x00, 0x00, 0, .idxLast, .payLast⟩,
    ⟨.verify, 0x00, 0x00, 0, .eqChk, .vfyOk⟩,
    ⟨.verify, 0x00, 0x00, 0, .neChk, .vfyBad⟩ ]

/-- All fourteen `S` rows. -/
def byteRows : List ByteRow := markerRows ++ frameRows

/-- The row's phase, pattern and condition hold (R71). -/
def ByteRow.hits (r : ByteRow) (v : View) (b : Byte) : Bool :=
  r.phase = v.phase && (b &&& r.mask) = r.pattern && r.cond.holds v b

/-- The rows that apply: those that hit, and no row of the phase with a smaller priority number hits (R71). -/
def rowsApplying (v : View) (b : Byte) : List ByteRow :=
  byteRows.filter fun r => r.hits v b && !byteRows.any fun r' => r'.hits v b && r'.priority < r.priority

/-! ## Wire frames -/

/-- Why a byte sequence is not one wire frame of R60. -/
inductive DecodeError where
  /-- The first three bytes are neither `24 4D 3C` nor `24 4D 21` (R61). -/
  | noMarker
  /-- Fewer bytes than the length byte asks for (R66). -/
  | truncated
  /-- Bytes after the checksum (R66: a frame is exactly `L + 6` bytes). -/
  | trailing
  deriving DecidableEq, Repr

/-- The error flag a marker stands for (R61, R68); `none` for a byte triple that is no marker. -/
def markerKind (m1 m2 m3 : Byte) : Option Bool :=
  if m1 = Config.marker1 ∧ m2 = Config.marker2 then
    if m3 = Config.markerReq then some false
    else if m3 = Config.markerErr then some true
    else none
  else none

/-- The operation a whole frame is (format `W`): the marker selects the row. -/
def frameInstr (err : Bool) (cmd : Byte) (payload : List Byte) (chk : Byte) : Instr :=
  if err then .frameErr cmd payload chk else .frameReq cmd payload chk

/-- Read one frame from the front of a byte sequence (R60, R66): the length byte says how many payload bytes follow the
command id, and the checksum byte follows them. Any checksum byte is read; whether it is right is the decoder's
business in phase `Verify` (R70 (b)). -/
def decodeFramePrefix : List Byte → Except DecodeError (Instr × List Byte)
  | m1 :: m2 :: m3 :: l :: c :: rest =>
    match markerKind m1 m2 m3 with
    | none => .error .noMarker
    | some err =>
      match rest.drop l.toNat with
      | [] => .error .truncated
      | chk :: more => .ok (frameInstr err c (rest.take l.toNat) chk, more)
  | _ => .error .truncated

/-- Read a byte sequence that is exactly one frame (R66). -/
def decodeFrame (f : List Byte) : Except DecodeError Instr :=
  match decodeFramePrefix f with
  | .error e => .error e
  | .ok (i, []) => .ok i
  | .ok (_, _ :: _) => .error .trailing

/-! ## Requests -/

/-- The operation a request asks for. `BYTE` is classified with the phase (R69), ENCODE by its payload length (R72), and
`rst` wins over a simultaneous byte (R184, D17). A `frame` request that is not exactly one frame is a `FEED` of its bytes
(R73): its first byte is the next operation and the others stay to be applied. -/
def decodeRequest (v : View) : Request → Decoded
  | .rx b =>
    match decodeByte v b with
    | some i => .run i []
    | none => .noRow
  | .frame f =>
    match decodeFrame f, f with
    | .ok i, _ => .run i []
    | .error _, [] => .nothing
    | .error _, b :: rest =>
      match decodeByte v b with
      | some i => .run i (rest.map .rx)
      | none => .noRow
  | .enc cmd payload =>
    if payload.length ≤ Config.maxPayload then .run (.encOk cmd payload) [] else .run (.encRej cmd payload) []
  | .rst => .run .reset []
  | .rstRx _ => .run .reset []

/-! ## The encoder -/

/-- The bytes of a frame (R60), for a payload of at most 255 bytes. DESIGN CHOICE: for a longer payload, of which R60 and R73
make no frame, the length byte is the payload's length modulo 256 (notes/assumptions/19.md). -/
def frameBytes (err : Bool) (cmd : Byte) (payload : List Byte) (chk : Byte) : List Byte :=
  [Config.marker1, Config.marker2, Config.marker3 err, BitVec.ofNat 8 payload.length, cmd] ++ payload ++ [chk]

/-- The bytes that stand for an operation on the wire (formats `W` and `S`); the operations of formats `X`, `E` and `C`
have none (R71). -/
def encode : Instr → List Byte
  | .frameReq cmd payload chk => frameBytes false cmd payload chk
  | .frameErr cmd payload chk => frameBytes true cmd payload chk
  | .idleHit => [Config.marker1]
  | .idleMiss b => [b]
  | .sm1Hit => [Config.marker2]
  | .sm1Miss b => [b]
  | .sm2Req => [Config.markerReq]
  | .sm2Err => [Config.markerErr]
  | .sm2Miss b => [b]
  | .len b => [b]
  | .cmdNz b => [b]
  | .cmdZ b => [b]
  | .payMore b => [b]
  | .payLast b => [b]
  | .vfyOk b => [b]
  | .vfyBad b => [b]
  | .xclr => []
  | .xfold _ => []
  | .xcmp _ => []
  | .encOk _ _ => []
  | .encRej _ _ => []
  | .reset => []

/-- The input byte of an operation of format `S`. -/
def Instr.byte? : Instr → Option Byte
  | .idleHit => some Config.marker1
  | .idleMiss b => some b
  | .sm1Hit => some Config.marker2
  | .sm1Miss b => some b
  | .sm2Req => some Config.markerReq
  | .sm2Err => some Config.markerErr
  | .sm2Miss b => some b
  | .len b => some b
  | .cmdNz b => some b
  | .cmdZ b => some b
  | .payMore b => some b
  | .payLast b => some b
  | .vfyOk b => some b
  | .vfyBad b => some b
  | .frameReq _ _ _ => none
  | .frameErr _ _ _ => none
  | .xclr => none
  | .xfold _ => none
  | .xcmp _ => none
  | .encOk _ _ => none
  | .encRej _ _ => none
  | .reset => none

/-- The request the host makes for an operation; none for the engine's internal operations. -/
def encodeRequest : Instr → Option Request
  | .frameReq cmd payload chk => some (.frame (frameBytes false cmd payload chk))
  | .frameErr cmd payload chk => some (.frame (frameBytes true cmd payload chk))
  | .encOk cmd payload => some (.enc cmd payload)
  | .encRej cmd payload => some (.enc cmd payload)
  | .reset => some .rst
  | i => i.byte?.map .rx

/-- The registers of the view select this form (R69, the columns "phase" and "further condition"); true for the
operations that no register selects. -/
def Instr.selectedBy (v : View) : Instr → Bool
  | .idleHit => v.phase = .idle
  | .idleMiss _ => v.phase = .idle
  | .sm1Hit => v.phase = .seekMarker1
  | .sm1Miss _ => v.phase = .seekMarker1
  | .sm2Req => v.phase = .seekMarker2
  | .sm2Err => v.phase = .seekMarker2
  | .sm2Miss _ => v.phase = .seekMarker2
  | .len _ => v.phase = .awaitLength
  | .cmdNz _ => v.phase = .awaitCommand ∧ v.len ≠ 0
  | .cmdZ _ => v.phase = .awaitCommand ∧ v.len = 0
  | .payMore _ => v.phase = .accumulatePayload ∧ v.idx.toNat + 1 < v.len.toNat
  | .payLast _ => v.phase = .accumulatePayload ∧ v.idx.toNat + 1 = v.len.toNat
  | .vfyOk b => v.phase = .verify ∧ b = v.chk
  | .vfyBad b => v.phase = .verify ∧ b ≠ v.chk
  | .frameReq _ _ _ => true
  | .frameErr _ _ _ => true
  | .xclr => true
  | .xfold _ => true
  | .xcmp _ => true
  | .encOk _ _ => true
  | .encRej _ _ => true
  | .reset => true

/-! ## Words of the opcode table -/

/-- The phase in which a byte of the opcode table is read: that of the row which names the byte as its constant, and
`Idle`, the phase after reset, for every other byte (notes/assumptions/9.md). -/
def tablePhase (b : Byte) : Phase :=
  if b = Config.marker2 then .seekMarker1
  else if b = Config.markerReq ∨ b = Config.markerErr then .seekMarker2
  else .idle

/-- The bytes of a `W` row's word: `f[0]` in bits 23..16 (R71), and zeros for the length, the command id and the
checksum. -/
def tableFrame (w : Nat) : List Byte :=
  [BitVec.ofNat 8 (w / 65536), BitVec.ofNat 8 (w / 256), BitVec.ofNat 8 w, 0, 0, 0]

/-- The operation the decoder reads from a word of the opcode table: 24 bits are the marker of a frame (format `W`), 8 bits
are an input byte (format `S`), read in `tablePhase`. The other formats have no bit pattern (R71). -/
def decodeTableWord (nbits w : Nat) : Option Instr :=
  if nbits = 24 then
    match decodeFrame (tableFrame w) with
    | .ok i => some i
    | .error _ => none
  else if nbits = 8 then
    decodeByte ⟨tablePhase (BitVec.ofNat 8 w), 0, 0, 0⟩ (BitVec.ofNat 8 w)
  else none

end Sys2Proof
end

