-- ==== Sys2Proof/Machine/State.lean ====
section
/-! DEFINITION. The state of the machine (10_state.md), its stops, and the state after reset.

The block's only architectural state is the decoder session (R20, R36); the encoder has none (R21). Beside the session
`State` holds the two byte-carrying sides of the block as plain data: what the host has still to apply and what has come
out (R41, R185). No operation reads those outputs. -/

namespace Sys2Proof.Machine

/-- The scratch payload buffer (R29, R40): (address, byte) pairs, addresses strictly rising. An address that is not listed
holds no value: "unspecified" (R34, notes/assumptions/2.md). -/
abbrev Memory := List Host.Cell

/-- The decoder session: the seven pieces of R36. -/
structure Session where
  /-- R23. -/
  phase : Phase
  /-- R24: `true` while the frame in progress, or the last one, began with the error marker. -/
  err : Bool
  /-- R26: the declared payload length. -/
  len : Byte
  /-- R27: the last command id. -/
  cmd : Byte
  /-- R28: the running checksum accumulator. -/
  chk : Byte
  /-- R25: the payload index. -/
  idx : Byte
  /-- R29: the scratch payload buffer. -/
  buf : Memory
  deriving DecidableEq, Repr

/-- Why the machine faults. -/
inductive Fault where
  /-- Raised by `VFY.OK` (R96) when one of the bytes `buf[0..len-1]` has no value. The spec's invariant rules it out: the
  frame in progress has written each of them (R34, R47). Safe: the machine stops, no value is invented. -/
  | unwrittenBuffer
  deriving DecidableEq, Repr

/-- Why the machine refuses. -/
inductive Refusal where
  /-- Raised by the dispatch for an operation that has no meaning yet (none is left). Safe. -/
  | notModelled (mnemonic : String)
  /-- Raised by a byte in phase `AccumulatePayload` with `idx >= len`: no row of R69 and no rule of R84 to R97 applies,
  and R25 says no session is in such a state. Safe: the machine stops. -/
  | noTransition
  deriving DecidableEq, Repr

/-- The machine: the block's session, and its two sides. -/
structure State where
  /-- The architectural state (R20). -/
  session : Session
  /-- What the host has still to apply, in order (R8 "program", R41 ingress, R185). -/
  pending : List Request
  /-- What the last step handed out, in order (R156, R184): empty where it handed out nothing. -/
  out : List Result
  /-- Everything handed out so far, oldest first (R185, "the sequence of events (and of ENCODE results) in order"). -/
  trace : List Result
  /-- The egress byte stream: the bytes ENCODE has emitted so far, in order (R41). -/
  egress : List Byte
  deriving DecidableEq, Repr

/-- A session just created (R33, R34): phase `Idle`; the spec's own zeros for the registers (D5,
notes/assumptions/3.md); no value in the buffer (notes/assumptions/2.md). A session without a RESET is not represented
(notes/assumptions/10.md). -/
def Session.reset : Session :=
  { phase := .idle, err := false, len := 0, cmd := 0, chk := 0, idx := 0, buf := [] }

/-- The machine right after reset: a new session, nothing to apply and nothing handed out. -/
def State.reset : State :=
  { session := Session.reset, pending := [], out := [], trace := [], egress := [] }

end Sys2Proof.Machine
end

