-- ==== Sys2Proof/Machine/Ops.lean ====
section
/-! DEFINITION. The named operations over the registers and the buffer, the shape of a decoder step, and the shared
delivery of an event (the block's form of "taking an exception", R8, R159). -/

namespace Sys2Proof.Machine

/-! ## The buffer (20_memory.md) -/

/-- One byte of the buffer (R46); `none` where nothing has been written since the session was created (R34). -/
def Memory.load : Memory → Nat → Option Byte
  | [], _ => none
  | (k, v) :: m, a => if k = a then some v else Memory.load m a

/-- `MemWrite(a, 1, v)` (R10, R46, R50): changes the byte at `a` only. -/
def Memory.store : Memory → Nat → Byte → Memory
  | [], a, v => [(a, v)]
  | (k, w) :: m, a, v =>
    if a < k then (a, v) :: (k, w) :: m
    else if a = k then (a, v) :: m
    else (k, w) :: Memory.store m a v

/-- `MemRead(a, n)` (R10, R46): `n` bytes from `a` in increasing address order; `none` if one of them has no value. -/
def Memory.read (m : Memory) : Nat → Nat → Option (List Byte)
  | _, 0 => some []
  | a, n + 1 =>
    match m.load a, m.read (a + 1) n with
    | some b, some bs => some (b :: bs)
    | _, _ => none

/-- The canonical form: addresses strictly rising, all of them below `BUF_CAP` (R40). -/
def Memory.wf : Memory → Bool
  | [] => true
  | [(k, _)] => k < Config.bufCap
  | (k, _) :: (k', v') :: m => k < k' && Memory.wf ((k', v') :: m)

/-! ## The registers of the session (R36) -/

/-- `phase <- p`. -/
def Session.setPhase (d : Session) (p : Phase) : Session := { d with phase := p }
/-- `err <- e`. -/
def Session.setErr (d : Session) (e : Bool) : Session := { d with err := e }
/-- `len <- b`. -/
def Session.setLen (d : Session) (b : Byte) : Session := { d with len := b }
/-- `cmd <- b`. -/
def Session.setCmd (d : Session) (b : Byte) : Session := { d with cmd := b }
/-- `chk <- b`. -/
def Session.setChk (d : Session) (b : Byte) : Session := { d with chk := b }
/-- `idx <- b`. -/
def Session.setIdx (d : Session) (b : Byte) : Session := { d with idx := b }
/-- `buf[a] <- b` (R29). -/
def Session.setBuf (d : Session) (a : Nat) (b : Byte) : Session := { d with buf := d.buf.store a b }

/-- What the byte decoder looks at (R69). -/
def Session.view (d : Session) : View := { phase := d.phase, len := d.len, idx := d.idx, chk := d.chk }

/-! ## The parts of the machine state -/

def State.setSession (s : State) (d : Session) : State := { s with session := d }
def State.setPending (s : State) (q : List Request) : State := { s with pending := q }
def State.setOut (s : State) (r : List Result) : State := { s with out := r }
/-- What the step handed out is added to the run's results (R185). -/
def State.record (s : State) : State := { s with trace := s.trace ++ s.out }
/-- `emit f` (R10): append to the egress byte stream. -/
def State.emit (s : State) (f : List Byte) : State := { s with egress := s.egress ++ f }

/-! ## Outcomes -/

/-- The three outcomes, over anything. -/
abbrev Answer (α : Type) := Host.Outcome α Fault Refusal

/-- Go on with a next value; a stop stays that stop. -/
def Answer.andThen {α β : Type} (o : Answer α) (f : α → Answer β) : Answer β :=
  match o with
  | .next a => f a
  | .fault r => .fault r
  | .refused r => .refused r

/-! ## A decoder step (40_decoder_fsm.md R80) -/

/-- What one decoder step leaves: the session, and at most one event (R156). -/
abbrev DecOut := Session × Option Event

/-- A step that produces no event. -/
def quiet (d : Session) : DecOut := (d, none)

/-- Delivering an event (R159, R160; R10 `raise`): the event is the only record, the decoder writes `phase <- Idle` and
nothing else (D6, notes/assumptions/14.md), and there is no handler to return from. -/
def raiseEvent (e : Event) (d : Session) : DecOut := (d.setPhase .idle, some e)

/-- The resynchronisation mismatch (R154, R35): silently back to `Idle`. -/
def resync (d : Session) : DecOut := quiet (d.setPhase .idle)

/-- The results an optional event amounts to. -/
def eventResults : Option Event → List Result
  | none => []
  | some e => [.event e]

/-- A decoder step as a step of the machine: the event, if any, is handed out with the step (R156). -/
def State.afterByte (s : State) (o : Answer DecOut) : Answer State :=
  o.andThen fun r => .next ((s.setSession r.1).setOut (eventResults r.2))

end Sys2Proof.Machine
end

