-- ==== Sys2Proof/Machine/Control.lean ====
section
/-! DEFINITION. The control operation `RESET` (70_reset_and_hazards.md R180, notes/assumptions/11.md). -/

namespace Sys2Proof.Machine

/-- `RESET` (R180): the session of a new connection, in any phase; the frame in progress is discarded without an event. It
acts on the decoder session only (R53, R182). -/
def execReset (s : State) : Answer State := .next ((s.setSession Session.reset).setOut [])

end Sys2Proof.Machine
end

