-- ==== Sys2Proof/Machine/Operands.lean ====
section
/-! DEFINITION. How operands are assembled (30_encoding.md R68): every operand is a whole unsigned byte, the payload address
is `idx`, and the length byte is a payload's length. -/

namespace Sys2Proof.Machine

/-- The address the next payload byte is stored at (R25, R94). -/
def Session.payloadAddr (d : Session) : Nat := d.idx.toNat

/-- `idx + 1`, the index after a payload byte is stored (R25: it never wraps where a payload rule applies). -/
def Session.nextIdx (d : Session) : Byte := d.idx + 1

/-- The payload a valid frame hands over, `MemRead(0, len)` (R46, R49); empty for `len = 0` (D26). -/
def Session.payload (d : Session) : Option (List Byte) := d.buf.read 0 d.len.toNat

/-- The length byte of a payload of at most 255 bytes (R62, R121); of a longer one, its length modulo 256
(notes/assumptions/19.md). -/
def lengthByte (payload : List Byte) : Byte := BitVec.ofNat 8 payload.length

end Sys2Proof.Machine
end

