-- ==== Sys2Proof/Machine/Flags.lean ====
section
/-! DEFINITION. The block's one flag, `err` (10_state.md R24, R31), and the conditions the transition rules test. The block
has no condition codes; none of these comparisons is stored (R31). -/

namespace Sys2Proof.Machine

/-- `len == 0` (R93). -/
def Session.lenZero (d : Session) : Bool := d.len = 0

/-- `idx + 1 < len` (R94), over the integers (R9). -/
def Session.moreFollow (d : Session) : Bool := d.idx.toNat + 1 < d.len.toNat

/-- `idx + 1 == len` (R95), over the integers (R9). -/
def Session.lastOne (d : Session) : Bool := d.idx.toNat + 1 = d.len.toNat

/-- Normal framing leaves the error flag clear (R88). -/
def Session.clearErr (d : Session) : Session := d.setErr false

/-- Error framing sets the error flag (R89). -/
def Session.raiseErr (d : Session) : Session := d.setErr true

end Sys2Proof.Machine
end

