-- ==== Sys2Proof/Machine/Engine.lean ====
section
/-! DEFINITION. The XOR-fold checksum engine (41_xor_engine.md) and its three operations.

The engine is an 8-bit accumulator; it is a plain XOR fold, not a polynomial CRC (R110). Its functions act on any
accumulator: the decoder's is the register `chk`, the encoder's is private to one ENCODE (R117). Run by itself, an
engine operation acts on `chk`, the one instance that is state (notes/assumptions/7.md). -/

namespace Sys2Proof.Machine

/-- `XCLR`: the accumulator after clearing (R112). -/
def engineClear : Byte := 0x00

/-- `XFOLD(b)`: the accumulator after folding `b` in (R113). -/
def engineFold (acc b : Byte) : Byte := acc ^^^ b

/-- `XCMP(b)`: the truth value of `b == acc` (R114). -/
def engineCmp (acc b : Byte) : Bool := b = acc

/-- `XorFold` (R111): the fold of a byte sequence from the cleared accumulator. -/
def xorFold (bytes : List Byte) : Byte := bytes.foldl engineFold engineClear

/-- `XCLR` on the decoder's accumulator. -/
def Session.xclr (d : Session) : Session := d.setChk engineClear

/-- `XFOLD(b)` on the decoder's accumulator. -/
def Session.xfold (d : Session) (b : Byte) : Session := d.setChk (engineFold d.chk b)

/-- `XCMP(b)` on the decoder's accumulator, which it does not write (R114, D9). -/
def Session.xcmp (d : Session) (b : Byte) : Bool := engineCmp d.chk b

/-- `XCLR` (R112). -/
def execXclr (s : State) : Answer State := .next ((s.setSession s.session.xclr).setOut [])

/-- `XFOLD(b)` (R113). -/
def execXfold (b : Byte) (s : State) : Answer State := .next ((s.setSession (s.session.xfold b)).setOut [])

/-- `XCMP(b)` (R114): the truth value is handed out; no register is written. -/
def execXcmp (b : Byte) (s : State) : Answer State := .next (s.setOut [.compared (s.session.xcmp b)])

end Sys2Proof.Machine
end

