-- ==== Sys2Proof/Machine/Decoder.lean ====
section
/-! DEFINITION. The Frame Decoder (40_decoder_fsm.md): one definition per transition rule R84 to R97, the step and the
run they make, and the fourteen operations of format `S`.

An operation of format `S` is `BYTE(b)` in one form, and the session's registers select the form (R69, R80). Where they
select the operation's own form, the operation's rule is applied. Where they select another form, the hardware that is
given this byte in this session applies the rule of that form, since no byte is ever refused (R80, R81), and so does the
model (notes/assumptions/6.md); the machine's step never gets there, because it decodes with the session's registers. -/

namespace Sys2Proof.Machine

/-! ## The transition rules -/

/-- R84 `IDLE.HIT`: `phase <- SeekMarker1`. -/
def ruleIdleHit (d : Session) : DecOut := quiet (d.setPhase .seekMarker1)

/-- R85 `IDLE.MISS`: `phase <- Idle`. -/
def ruleIdleMiss (d : Session) : DecOut := resync d

/-- R86 `SM1.HIT`: `phase <- SeekMarker2`. -/
def ruleSm1Hit (d : Session) : DecOut := quiet (d.setPhase .seekMarker2)

/-- R87 `SM1.MISS`: `phase <- Idle`; the byte is not examined again. -/
def ruleSm1Miss (d : Session) : DecOut := resync d

/-- R88 `SM2.REQ`: `err <- 0; phase <- AwaitLength`. -/
def ruleSm2Req (d : Session) : DecOut := quiet (d.clearErr.setPhase .awaitLength)

/-- R89 `SM2.ERR`: `err <- 1; phase <- AwaitLength`. -/
def ruleSm2Err (d : Session) : DecOut := quiet (d.raiseErr.setPhase .awaitLength)

/-- R90 `SM2.MISS`: `phase <- Idle`. -/
def ruleSm2Miss (d : Session) : DecOut := resync d

/-- R91 `LEN`: `len <- b; XCLR; XFOLD(b); idx <- 0; phase <- AwaitCommand`. -/
def ruleLen (b : Byte) (d : Session) : DecOut :=
  quiet (((((d.setLen b).xclr).xfold b).setIdx 0).setPhase .awaitCommand)

/-- R92 `CMD.NZ`: `cmd <- b; XFOLD(b); phase <- AccumulatePayload`. -/
def ruleCmdNz (b : Byte) (d : Session) : DecOut := quiet (((d.setCmd b).xfold b).setPhase .accumulatePayload)

/-- R93 `CMD.Z`: `cmd <- b; XFOLD(b); phase <- Verify`. -/
def ruleCmdZ (b : Byte) (d : Session) : DecOut := quiet (((d.setCmd b).xfold b).setPhase .verify)

/-- `MemWrite(idx, 1, b); XFOLD(b); idx <- idx + 1`: what R94 and R95 share. -/
def Session.takePayload (d : Session) (b : Byte) : Session :=
  ((d.setBuf d.payloadAddr b).xfold b).setIdx d.nextIdx

/-- R94 `PAY.MORE`: the payload byte is taken and the phase stays. -/
def rulePayMore (b : Byte) (d : Session) : DecOut := quiet ((d.takePayload b).setPhase .accumulatePayload)

/-- R95 `PAY.LAST`: the payload byte is taken; `phase <- Verify`. -/
def rulePayLast (b : Byte) (d : Session) : DecOut := quiet ((d.takePayload b).setPhase .verify)

/-- R96 `VFY.OK`: `raise FrameValid(cmd, len, MemRead(0, len), err); phase <- Idle`. -/
def ruleVfyOk (d : Session) : Answer DecOut :=
  match d.payload with
  | some p => .next (raiseEvent (.frameValid d.cmd d.len p d.err) d)
  | none => .fault .unwrittenBuffer

/-- R97 `VFY.BAD`: `raise ChecksumError(cmd); phase <- Idle`. -/
def ruleVfyBad (d : Session) : DecOut := raiseEvent (.checksumError d.cmd) d

/-! ## The step and the run -/

/-- `DecStep` (R80): the state diagram of R83, every edge of it. -/
def decStep (d : Session) (b : Byte) : Answer DecOut :=
  match d.phase with
  | .idle => if b = Config.marker1 then .next (ruleIdleHit d) else .next (ruleIdleMiss d)
  | .seekMarker1 => if b = Config.marker2 then .next (ruleSm1Hit d) else .next (ruleSm1Miss d)
  | .seekMarker2 =>
    if b = Config.markerReq then .next (ruleSm2Req d)
    else if b = Config.markerErr then .next (ruleSm2Err d)
    else .next (ruleSm2Miss d)
  | .awaitLength => .next (ruleLen b d)
  | .awaitCommand => if d.lenZero then .next (ruleCmdZ b d) else .next (ruleCmdNz b d)
  | .accumulatePayload =>
    if d.moreFollow then .next (rulePayMore b d)
    else if d.lastOne then .next (rulePayLast b d)
    else .refused .noTransition
  | .verify => if d.xcmp b then ruleVfyOk d else .next (ruleVfyBad d)

/-- `DecRun` (R98): the left fold of `DecStep` over a byte sequence, collecting the events in order. -/
def decRun (d : Session) : List Byte → Answer (Session × List Event)
  | [] => .next (d, [])
  | b :: bs =>
    (decStep d b).andThen fun r =>
      (decRun r.1 bs).andThen fun q => .next (q.1, r.2.toList ++ q.2)

/-- `BYTE(b)` as a step of the machine, whatever the phase. -/
def consumeByte (b : Byte) (s : State) : Answer State := s.afterByte (decStep s.session b)

/-- A byte sequence fed as one operation (R73): the events are handed out in the order of the bytes that caused them
(R156). -/
def consumeBytes (bs : List Byte) (s : State) : Answer State :=
  (decRun s.session bs).andThen fun r => .next ((s.setSession r.1).setOut (r.2.map .event))

/-- `BYTE(b)` in one form: the form's own rule where the session selects it, the session's own form otherwise. -/
def byteForm (selected : Bool) (own : Answer DecOut) (b : Byte) (s : State) : Answer State :=
  if selected then s.afterByte own else consumeByte b s

/-! ## The operations of format `S` -/

/-- `IDLE.HIT` (R84). -/
def execIdleHit (s : State) : Answer State :=
  byteForm (s.session.phase = .idle) (.next (ruleIdleHit s.session)) Config.marker1 s

/-- `IDLE.MISS` (R85). -/
def execIdleMiss (b : Byte) (s : State) : Answer State :=
  byteForm (s.session.phase = .idle ∧ b ≠ Config.marker1) (.next (ruleIdleMiss s.session)) b s

/-- `SM1.HIT` (R86). -/
def execSm1Hit (s : State) : Answer State :=
  byteForm (s.session.phase = .seekMarker1) (.next (ruleSm1Hit s.session)) Config.marker2 s

/-- `SM1.MISS` (R87). -/
def execSm1Miss (b : Byte) (s : State) : Answer State :=
  byteForm (s.session.phase = .seekMarker1 ∧ b ≠ Config.marker2) (.next (ruleSm1Miss s.session)) b s

/-- `SM2.REQ` (R88). -/
def execSm2Req (s : State) : Answer State :=
  byteForm (s.session.phase = .seekMarker2) (.next (ruleSm2Req s.session)) Config.markerReq s

/-- `SM2.ERR` (R89). -/
def execSm2Err (s : State) : Answer State :=
  byteForm (s.session.phase = .seekMarker2) (.next (ruleSm2Err s.session)) Config.markerErr s

/-- `SM2.MISS` (R90). -/
def execSm2Miss (b : Byte) (s : State) : Answer State :=
  byteForm (s.session.phase = .seekMarker2 ∧ b ≠ Config.markerReq ∧ b ≠ Config.markerErr)
    (.next (ruleSm2Miss s.session)) b s

/-- `LEN` (R91). -/
def execLen (b : Byte) (s : State) : Answer State :=
  byteForm (s.session.phase = .awaitLength) (.next (ruleLen b s.session)) b s

/-- `CMD.NZ` (R92). -/
def execCmdNz (b : Byte) (s : State) : Answer State :=
  byteForm (s.session.phase = .awaitCommand ∧ s.session.lenZero = false) (.next (ruleCmdNz b s.session)) b s

/-- `CMD.Z` (R93). -/
def execCmdZ (b : Byte) (s : State) : Answer State :=
  byteForm (s.session.phase = .awaitCommand ∧ s.session.lenZero) (.next (ruleCmdZ b s.session)) b s

/-- `PAY.MORE` (R94). -/
def execPayMore (b : Byte) (s : State) : Answer State :=
  byteForm (s.session.phase = .accumulatePayload ∧ s.session.moreFollow) (.next (rulePayMore b s.session)) b s

/-- `PAY.LAST` (R95). -/
def execPayLast (b : Byte) (s : State) : Answer State :=
  byteForm (s.session.phase = .accumulatePayload ∧ s.session.lastOne) (.next (rulePayLast b s.session)) b s

/-- `VFY.OK` (R96). -/
def execVfyOk (b : Byte) (s : State) : Answer State :=
  byteForm (s.session.phase = .verify ∧ s.session.xcmp b) (ruleVfyOk s.session) b s

/-- `VFY.BAD` (R97). -/
def execVfyBad (b : Byte) (s : State) : Answer State :=
  byteForm (s.session.phase = .verify ∧ s.session.xcmp b = false) (.next (ruleVfyBad s.session)) b s

end Sys2Proof.Machine
end

