-- ==== Sys2Proof/Machine/Encoder.lean ====
section
/-! DEFINITION. The Frame Encoder (42_encoder.md): a stateless function of a command id and a payload (R120, R126;
the spec's own decisions about it: notes/assumptions/16.md). -/

namespace Sys2Proof.Machine

/-- The accumulator after folding length, command id and each payload byte in increasing order (R121, R122), from a
private accumulator that starts cleared (R117). -/
def encodeChecksum (cmd : Byte) (payload : List Byte) : Byte :=
  payload.foldl engineFold (engineFold (engineFold engineClear (lengthByte payload)) cmd)

/-- The frame of R121, for a payload of at most 255 bytes: marker, length, command id, payload, checksum (R123). The marker
is always the normal one (R125). -/
def encodeBytes (cmd : Byte) (payload : List Byte) : List Byte :=
  [Config.marker1, Config.marker2, Config.markerReq] ++ [lengthByte payload] ++ [cmd] ++ payload
    ++ [encodeChecksum cmd payload]

/-- `Encode` (R120): the frame, or the rejection `PayloadTooLarge` (`none`) before any byte is produced (R124). -/
def encodeFrame (cmd : Byte) (payload : List Byte) : Option (List Byte) :=
  if payload.length ≤ Config.maxPayload then some (encodeBytes cmd payload) else none

/-- The accepted request (R121): the whole frame goes to the egress stream and to the caller. The session is not
touched. -/
def acceptEncode (cmd : Byte) (payload : List Byte) (s : State) : State :=
  (s.emit (encodeBytes cmd payload)).setOut [.encoded (encodeBytes cmd payload)]

/-- The rejected request (R124, R155): nothing is emitted; the rejection is the operation's result. -/
def rejectEncode (s : State) : State := s.setOut [.payloadTooLarge]

/-- ENCODE with the form its payload length selects (R72). -/
def applyEncode (cmd : Byte) (payload : List Byte) (s : State) : Answer State :=
  if payload.length ≤ Config.maxPayload then .next (acceptEncode cmd payload s) else .next (rejectEncode s)

/-- `ENC.OK` (R121). A payload of more than 255 bytes makes the operation ill-formed and selects the other form. -/
def execEncOk (cmd : Byte) (payload : List Byte) (s : State) : Answer State :=
  if payload.length ≤ Config.maxPayload then .next (acceptEncode cmd payload s) else applyEncode cmd payload s

/-- `ENC.REJ` (R124). A payload of at most 255 bytes makes the operation ill-formed and selects the other form. -/
def execEncRej (cmd : Byte) (payload : List Byte) (s : State) : Answer State :=
  if Config.maxPayload < payload.length then .next (rejectEncode s) else applyEncode cmd payload s

end Sys2Proof.Machine
end

