-- ==== Sys2Proof/Machine/Frame.lean ====
section
/-! DEFINITION. The two wire-frame operations (format `W`, 30_encoding.md R60, R73): the bytes of a frame, fed to the
decoder in wire order, one decoder step for each (notes/assumptions/5.md). With more than 255 payload bytes the operation is
ill-formed and still feeds the bytes of `frameBytes` (notes/assumptions/19.md). -/

namespace Sys2Proof.Machine

/-- `FRAME.REQ` (R60, R73 `FRAME<`). -/
def execFrameReq (cmd : Byte) (payload : List Byte) (chk : Byte) (s : State) : Answer State :=
  consumeBytes (frameBytes false cmd payload chk) s

/-- `FRAME.ERR` (R60, R73 `FRAME!`). -/
def execFrameErr (cmd : Byte) (payload : List Byte) (chk : Byte) (s : State) : Answer State :=
  consumeBytes (frameBytes true cmd payload chk) s

end Sys2Proof.Machine
end

