-- ==== Sys2Proof/Machine/Dispatch.lean ====
section
/-! DEFINITION. One arm per operation of the block. -/

namespace Sys2Proof.Machine

def exec (i : Instr) (s : State) : Host.Outcome State Fault Refusal :=
  match i with
  -- wire frames (format W)
  | .frameReq cmd payload chk => Sys2Proof.Machine.execFrameReq cmd payload chk s
  | .frameErr cmd payload chk => Sys2Proof.Machine.execFrameErr cmd payload chk s
  -- the decoder's byte forms (format S)
  | .idleHit => Sys2Proof.Machine.execIdleHit s
  | .idleMiss b => Sys2Proof.Machine.execIdleMiss b s
  | .sm1Hit => Sys2Proof.Machine.execSm1Hit s
  | .sm1Miss b => Sys2Proof.Machine.execSm1Miss b s
  | .sm2Req => Sys2Proof.Machine.execSm2Req s
  | .sm2Err => Sys2Proof.Machine.execSm2Err s
  | .sm2Miss b => Sys2Proof.Machine.execSm2Miss b s
  | .len b => Sys2Proof.Machine.execLen b s
  | .cmdNz b => Sys2Proof.Machine.execCmdNz b s
  | .cmdZ b => Sys2Proof.Machine.execCmdZ b s
  | .payMore b => Sys2Proof.Machine.execPayMore b s
  | .payLast b => Sys2Proof.Machine.execPayLast b s
  | .vfyOk b => Sys2Proof.Machine.execVfyOk b s
  | .vfyBad b => Sys2Proof.Machine.execVfyBad b s
  -- the XOR-fold engine (format X)
  | .xclr => Sys2Proof.Machine.execXclr s
  | .xfold b => Sys2Proof.Machine.execXfold b s
  | .xcmp b => Sys2Proof.Machine.execXcmp b s
  -- the encoder (format E)
  | .encOk cmd payload => Sys2Proof.Machine.execEncOk cmd payload s
  | .encRej cmd payload => Sys2Proof.Machine.execEncRej cmd payload s
  -- control (format C)
  | .reset => Sys2Proof.Machine.execReset s

end Sys2Proof.Machine
end

