-- ==== Sys2Proof/Machine/Fetch.lean ====
section
/-! DEFINITION. Where the next operation comes from: the block executes no stored program (R8, R55); the host applies a
sequence of requests (R185), and each is taken once and decoded with the session's registers (R69). -/

namespace Sys2Proof.Machine

/-- The next operation and the state with its request taken off; an empty sequence, or a request that carries nothing, is a
pause (R81, R189). -/
def fetch (s : State) : Decoded × State :=
  match s.pending with
  | [] => (.nothing, s)
  | r :: rest =>
    match decodeRequest s.session.view r with
    | .run i more => (.run i more, s.setPending (more ++ rest))
    | .nothing => (.nothing, s.setPending rest)
    | .noRow => (.noRow, s)

/-- A pause: no operation, the session does not change and nothing is handed out (R81, R189). -/
def pause (s : State) : State := s.setOut []

/-- The state in which the operation of an opcode-table word is the next one: its request comes first, and for a byte the
session is in the phase that the byte is read in (`tablePhase`, notes/assumptions/9.md). -/
def placeWord (s : State) (nbits w : Nat) : State :=
  if nbits = 24 then s.setPending (.frame (tableFrame w) :: s.pending)
  else if nbits = 8 then
    (s.setSession (s.session.setPhase (tablePhase (BitVec.ofNat 8 w)))).setPending (.rx (BitVec.ofNat 8 w) :: s.pending)
  else s

end Sys2Proof.Machine
end

