-- ==== Sys2Proof/Machine/Step.lean ====
section
/-! DEFINITION. One step of the machine: the next operation of the host's sequence has its whole effect (00_scope.md R11,
R194), and what it hands out joins the results of the run (R185). One operation at a time, no time: notes/assumptions/12.md,
notes/assumptions/17.md. -/

namespace Sys2Proof.Machine

/-- One step. -/
def step (s : State) : Host.Outcome State Fault Refusal :=
  match fetch s with
  | (.run i _, s') => Answer.andThen (exec i s') fun t => .next t.record
  | (.nothing, s') => .next (pause s')
  | (.noRow, _) => .refused .noTransition

/-- The operation of an opcode-table word, put where `step` fetches its next operation. -/
def State.withFetchWord (s : State) (nbits w : Nat) : State := placeWord s nbits w

end Sys2Proof.Machine
end

