-- ==== Sys2Proof/Machine/Boundary.lean ====
section
/-! DEFINITION. The boundary with the consumer and the Message Registry (43_payload_boundary.md R135, R137, R141;
60_exceptions.md R151 to R153). None of it is an operation of the block: the registry is outside it (R5), and these
functions only say how what the block hands over is read (notes/assumptions/15.md,
notes/assumptions/18.md). -/

namespace Sys2Proof.Machine

/-- What a consumer makes of an event (R151 to R153). -/
inductive Delivery where
  /-- A frame for the registry: command id and payload bytes. -/
  | message (cmd : Byte) (payload : List Byte)
  /-- `PeerError{command_id}`. -/
  | peerError (cmd : Byte)
  /-- `ChecksumError{command_id}`. -/
  | checksumError (cmd : Byte)
  deriving DecidableEq, Repr

/-- An error frame becomes `PeerError`, dropping length and payload, and is not passed to the registry (R153, D11). -/
def deliver : Event → Delivery
  | .frameValid cmd _ payload err => if err then .peerError cmd else .message cmd payload
  | .checksumError cmd => .checksumError cmd

/-- The unsigned value of a field, least significant byte first (R137, for the widths 1, 2 and 4; that another width
is read in the same way is the model's choice, notes/assumptions/18.md). -/
def fieldUnsigned : List Byte → Nat
  | [] => 0
  | b :: bs => b.toNat + 256 * fieldUnsigned bs

/-- The signed value of a field: two's complement of its `8k` bits (R137; for another width than 1, 2 and 4,
notes/assumptions/18.md). -/
def fieldSigned (bytes : List Byte) : Int :=
  let u := fieldUnsigned bytes
  if 2 * u < 2 ^ (8 * bytes.length) then (u : Int) else (u : Int) - 2 ^ (8 * bytes.length)

/-- The `k` bytes of an unsigned value, least significant first (R137). DESIGN CHOICE: R137 gives bytes only for values of the
field's range; a value of `2^(8k)` or more is reduced modulo `2^(8k)` (notes/assumptions/18.md). -/
def unsignedBytes : Nat → Nat → List Byte
  | 0, _ => []
  | k + 1, u => BitVec.ofNat 8 u :: unsignedBytes k (u / 256)

/-- The `k` bytes of a signed value `v`, those of `v mod 2^(8k)` (R137, for `v` in `-2^(8k-1) .. 2^(8k-1)-1`). DESIGN CHOICE:
a value outside that range, for which R137 gives no bytes, is reduced modulo `2^(8k)` too (notes/assumptions/18.md). -/
def signedBytes (k : Nat) (v : Int) : List Byte := unsignedBytes k (v % 2 ^ (8 * k)).toNat

/-- The one layout the source gives (R141): command id 108, three signed 16-bit fields. -/
structure Attitude where
  roll : Int
  pitch : Int
  yaw : Int
  deriving DecidableEq, Repr

/-- The command id of the attitude message (R141). -/
def attitudeCmd : Byte := 108

/-- The payload of an attitude message (R137, R141). DESIGN CHOICE: a field outside the signed 16-bit range, for which the spec
gives no bytes, is reduced modulo `2^16` (notes/assumptions/18.md). -/
def Attitude.payload (a : Attitude) : List Byte :=
  signedBytes 2 a.roll ++ signedBytes 2 a.pitch ++ signedBytes 2 a.yaw

/-- An attitude message read from its payload (R141 "payload length 6"); a shorter or a longer payload is a decode failure
(R139 "truncated/oversized payload"). -/
def Attitude.ofPayload (p : List Byte) : Option Attitude :=
  if p.length = 6 then
    some ⟨fieldSigned (p.take 2), fieldSigned ((p.drop 2).take 2), fieldSigned ((p.drop 4).take 2)⟩
  else none

/-- The attitude message in what a consumer makes of an event: only command id 108 has this layout (R141), and only a message
goes to the registry (R139, R153). No value stands for another command id and for a decode failure alike. -/
def Attitude.ofDelivery : Delivery → Option Attitude
  | .message cmd payload => if cmd = attitudeCmd then Attitude.ofPayload payload else none
  | .peerError _ => none
  | .checksumError _ => none

end Sys2Proof.Machine
end

