-- ==== Sys2Proof/Machine/Ports.lean ====
section
/-! DEFINITION. The block's output ports (70_reset_and_hazards.md R184, D2) and the event codes (60_exceptions.md R150), read
from what the last step handed out. A port that is not meaningful in a step has no value
(notes/assumptions/13.md). -/

namespace Sys2Proof.Machine

/-- The code of an event (R150, D11). -/
def eventKind : Event → BitVec 2
  | .frameValid _ _ _ _ => 1
  | .checksumError _ => 2

/-- The event of the last step; for a frame fed as one operation, the event of its last byte that raised one. -/
def State.lastEvent (s : State) : Option Event :=
  s.out.foldl (fun acc r => match r with
    | .event e => some e
    | .encoded _ => acc
    | .payloadTooLarge => acc
    | .compared _ => acc) none

/-- `ev_kind`: 0 where the last step produced no event; 3 is never produced. -/
def State.evKind (s : State) : BitVec 2 :=
  match s.lastEvent with
  | some e => eventKind e
  | none => 0

/-- `ev_cmd`, meaningful when `ev_kind != 0`. -/
def State.evCmd (s : State) : Option Byte :=
  match s.lastEvent with
  | some (.frameValid cmd _ _ _) => some cmd
  | some (.checksumError cmd) => some cmd
  | none => none

/-- `ev_len`, meaningful when `ev_kind == 1`. -/
def State.evLen (s : State) : Option Byte :=
  match s.lastEvent with
  | some (.frameValid _ len _ _) => some len
  | some (.checksumError _) => none
  | none => none

/-- `ev_err`, meaningful when `ev_kind == 1`. -/
def State.evErr (s : State) : Option Bool :=
  match s.lastEvent with
  | some (.frameValid _ _ _ err) => some err
  | some (.checksumError _) => none
  | none => none

/-- `ev_payload`, meaningful when `ev_kind == 1`: the values `buf` held at the `Verify` step. -/
def State.evPayload (s : State) : Option (List Byte) :=
  match s.lastEvent with
  | some (.frameValid _ _ payload _) => some payload
  | some (.checksumError _) => none
  | none => none

/-- `enc_reject`: the request was rejected with `PayloadTooLarge`. -/
def State.encReject (s : State) : Bool := s.out.any fun r => r = .payloadTooLarge

/-- `tx_data`: the frame of an accepted request, in wire order; no byte otherwise. -/
def State.txData (s : State) : List Byte :=
  s.out.flatMap fun r => match r with
    | .encoded f => f
    | .event _ => []
    | .payloadTooLarge => []
    | .compared _ => []

end Sys2Proof.Machine
end

