-- ==== Sys2Proof/Machine/Wire.lean ====
section
/-! DEFINITION. The predicate and the three functions on wire frames of 30_encoding.md R67. -/

namespace Sys2Proof.Machine

/-- `WellFormedFrame(f)` (R67): the length, the marker, the length byte against the number of bytes, and the checksum. -/
def wellFormedFrame (f : List Byte) : Bool :=
  6 ≤ f.length ∧ f.getD 0 0 = Config.marker1 ∧ f.getD 1 0 = Config.marker2
    ∧ (f.getD 2 0 = Config.markerReq ∨ f.getD 2 0 = Config.markerErr)
    ∧ f.length = (f.getD 3 0).toNat + Config.frameOverhead
    ∧ f.getLastD 0 = xorFold ((f.drop 3).dropLast)

/-- `FrameCmd(f) = f[4]` (R67). DESIGN CHOICE: 0 for a sequence without a fifth byte (notes/assumptions/20.md). -/
def frameCmd (f : List Byte) : Byte := f.getD 4 0

/-- `FramePayload(f) = f[5..|f|-2]` (R67); empty for a sequence of at most six bytes, as R9 says of such a range. -/
def framePayload (f : List Byte) : List Byte := (f.drop Config.headerLen).dropLast

/-- `FrameErr(f)` (R67): set where the third byte is `0x21`. DESIGN CHOICE: clear for a sequence without a third byte
(notes/assumptions/20.md). -/
def frameErr (f : List Byte) : Bool := f.getD 2 0 = Config.markerErr

/-- The event of a well-formed frame (R99). DESIGN CHOICE: for a sequence too short to have them, the command id, the length
and the error flag are 0 (notes/assumptions/20.md). -/
def frameEvent (f : List Byte) : Event := .frameValid (frameCmd f) (f.getD 3 0) (framePayload f) (frameErr f)

end Sys2Proof.Machine
end

