-- ==== Sys2Proof/Safety.lean ====
section
/-! DEFINITION. What claims are stated in: the states the spec allows, the bytes a machine is about to consume, and safe runs.

`Session.Inv` is the spec's own description of the sessions that exist (10_state.md R25, R28, R34; 20_memory.md R47). -/

namespace Sys2Proof.Machine

/-- The sessions the rules of 10_state.md allow (R80). -/
structure Session.Inv (d : Session) : Prop where
  /-- The buffer is in its canonical form and lies in `0..BUF_CAP-1` (R40). -/
  canonical : d.buf.wf = true
  /-- R25: a payload byte is still to come. -/
  idxBelow : d.phase = .accumulatePayload → d.idx.toNat < d.len.toNat
  /-- R25: all payload bytes have come. -/
  idxAtLen : d.phase = .verify → d.idx = d.len
  /-- R28 and R91, after the length byte. -/
  afterLength : d.phase = .awaitCommand → d.idx = 0 ∧ d.chk = xorFold [d.len]
  /-- R28, R34, after the command id: the payload bytes of this frame are in the buffer, and `chk` is the fold of the
  bytes consumed since the length byte. -/
  folded : d.phase = .accumulatePayload ∨ d.phase = .verify →
    ∃ p, d.buf.read 0 d.idx.toNat = some p ∧ d.chk = xorFold ([d.len, d.cmd] ++ p)

/-- The same, of the machine: it says nothing of the streams. -/
def State.Inv (s : State) : Prop := s.session.Inv

/-- The machine has the bytes `bs` to consume next, one `BYTE` operation each (R73 `FEED`). -/
def State.feeds (s : State) (bs : List Byte) (rest : List Request) : Prop :=
  s.pending = bs.map .rx ++ rest

/-- A safe run of `k` steps: it meets no fault and no refusal. -/
def State.safeFor (s : State) : Nat → Prop
  | 0 => True
  | k + 1 => ∃ t, step s = .next t ∧ t.safeFor k

end Sys2Proof.Machine
end

