-- ==== Sys2Proof/Certificates/Slice0/Obligations.lean ====
section
/-! DEFINITION. The statements about the model, for the provers. Each docstring names the rule it formalises; where a
clause is the spec's own decision, an inference of the spec, or the model's choice, the docstring says so. -/

open Sys2Proof Sys2Proof.Machine

/-! ## The transition rules of the decoder, one by one -/

/-- R84. -/
def Obligations.IdleHitSeeksSecondMarker : Prop :=
  ∀ s : State, s.session.phase = .idle →
    decodeByte s.session.view 0x24 = some .idleHit ∧
    exec .idleHit s = .next { s with session := { s.session with phase := .seekMarker1 }, out := [] }

/-- R85. -/
def Obligations.IdleMissChangesNothing : Prop :=
  ∀ (s : State) (b : Byte), s.session.phase = .idle → b ≠ 0x24 →
    decodeByte s.session.view b = some (.idleMiss b) ∧
    exec (.idleMiss b) s = .next { s with out := [] }

/-- R86. -/
def Obligations.SecondMarkerSeeksThird : Prop :=
  ∀ s : State, s.session.phase = .seekMarker1 →
    decodeByte s.session.view 0x4D = some .sm1Hit ∧
    exec .sm1Hit s = .next { s with session := { s.session with phase := .seekMarker2 }, out := [] }

/-- R87: every other byte, `0x24` among them, goes back to `Idle` and is not examined again, so that `24 24 4D 3C` does not
synchronise. -/
def Obligations.SecondMarkerMissReturnsToIdle : Prop :=
  (∀ (s : State) (b : Byte), s.session.phase = .seekMarker1 → b ≠ 0x4D →
    decodeByte s.session.view b = some (.sm1Miss b) ∧
    exec (.sm1Miss b) s = .next { s with session := { s.session with phase := .idle }, out := [] }) ∧
  ∀ d : Session, d.phase = .idle → decRun d [0x24, 0x24, 0x4D, 0x3C] = .next (d, [])

/-- R88. That normal framing writes the flag, rather than leaving it, is an inference the spec marks as derived from R89
and R24. -/
def Obligations.NormalMarkerClearsErr : Prop :=
  ∀ s : State, s.session.phase = .seekMarker2 →
    decodeByte s.session.view 0x3C = some .sm2Req ∧
    exec .sm2Req s = .next { s with session := { s.session with phase := .awaitLength, err := false }, out := [] }

/-- R89, with the code 0x21 of `'!'` that the spec takes from ASCII (G1, notes/assumptions/1.md). -/
def Obligations.ErrorMarkerSetsErr : Prop :=
  ∀ s : State, s.session.phase = .seekMarker2 →
    decodeByte s.session.view 0x21 = some .sm2Err ∧
    exec .sm2Err s = .next { s with session := { s.session with phase := .awaitLength, err := true }, out := [] }

/-- R90: `0x3E` and `0x24` are among the bytes that miss. -/
def Obligations.ThirdMarkerMissReturnsToIdle : Prop :=
  ∀ (s : State) (b : Byte), s.session.phase = .seekMarker2 → b ≠ 0x3C → b ≠ 0x21 →
    decodeByte s.session.view b = some (.sm2Miss b) ∧
    exec (.sm2Miss b) s = .next { s with session := { s.session with phase := .idle }, out := [] }

/-- R91: the net effect on the accumulator is `chk <- b`, which is what `XCLR; XFOLD(b)` leaves in it. -/
def Obligations.LengthByteStartsFrame : Prop :=
  ∀ (s : State) (b : Byte), s.session.phase = .awaitLength →
    decodeByte s.session.view b = some (.len b) ∧
    exec (.len b) s = .next { s with
      session := { s.session with phase := .awaitCommand, len := b, chk := b, idx := 0 }, out := [] } ∧
    ∀ u v : State, exec .xclr s = .next u → exec (.xfold b) u = .next v → v.session.chk = b

/-- R92. -/
def Obligations.CommandByteBeforePayload : Prop :=
  ∀ (s : State) (b : Byte), s.session.phase = .awaitCommand → s.session.len ≠ 0 →
    decodeByte s.session.view b = some (.cmdNz b) ∧
    exec (.cmdNz b) s = .next { s with
      session := { s.session with phase := .accumulatePayload, cmd := b, chk := s.session.chk ^^^ b }, out := [] }

/-- R93. The last clause is an inference the spec marks as derived: in a session the spec allows, `chk` is 0 before, so the
checksum of a zero-length frame equals its command id. -/
def Obligations.CommandByteOfEmptyFrame : Prop :=
  ∀ (s : State) (b : Byte), s.session.phase = .awaitCommand → s.session.len = 0 →
    decodeByte s.session.view b = some (.cmdZ b) ∧
    exec (.cmdZ b) s = .next { s with
      session := { s.session with phase := .verify, cmd := b, chk := s.session.chk ^^^ b }, out := [] } ∧
    (s.Inv → s.session.chk ^^^ b = b)

/-- R94: the byte is stored at `idx` and nowhere else, whatever its value, and the index does not overflow. -/
def Obligations.PayloadByteIsStored : Prop :=
  ∀ (s : State) (b : Byte), s.session.phase = .accumulatePayload → s.session.idx.toNat + 1 < s.session.len.toNat →
    decodeByte s.session.view b = some (.payMore b) ∧
    (s.session.idx + 1).toNat = s.session.idx.toNat + 1 ∧
    ∃ m : Memory, exec (.payMore b) s = .next { s with
        session := { s.session with chk := s.session.chk ^^^ b, idx := s.session.idx + 1, buf := m }, out := [] } ∧
      ∀ a, m.load a = if a = s.session.payloadAddr then some b else s.session.buf.load a

/-- R95: the same for the last payload byte, after which `idx == len` and the phase is `Verify`. -/
def Obligations.LastPayloadByteIsStored : Prop :=
  ∀ (s : State) (b : Byte), s.session.phase = .accumulatePayload → s.session.idx.toNat + 1 = s.session.len.toNat →
    decodeByte s.session.view b = some (.payLast b) ∧
    s.session.idx + 1 = s.session.len ∧
    ∃ m : Memory, exec (.payLast b) s = .next { s with
        session := { s.session with phase := .verify, chk := s.session.chk ^^^ b, idx := s.session.idx + 1, buf := m },
        out := [] } ∧
      ∀ a, m.load a = if a = s.session.payloadAddr then some b else s.session.buf.load a

/-- R96. The payload is the copy of `buf[0..len-1]`: `len` bytes, in increasing address order, none for `len == 0` (the
last is the spec's decision D26). -/
def Obligations.MatchDeliversFrame : Prop :=
  ∀ (s : State) (p : List Byte), s.session.phase = .verify → s.session.buf.read 0 s.session.len.toNat = some p →
    decodeByte s.session.view s.session.chk = some (.vfyOk s.session.chk) ∧
    exec (.vfyOk s.session.chk) s = .next { s with
      session := { s.session with phase := .idle },
      out := [.event (.frameValid s.session.cmd s.session.len p s.session.err)] } ∧
    p.length = s.session.len.toNat ∧
    ∀ k, k < p.length → p[k]? = s.session.buf.load k

/-- R97. That the event carries the command id and nothing else is the spec's decision D12. -/
def Obligations.MismatchReportsChecksumError : Prop :=
  ∀ (s : State) (b : Byte), s.session.phase = .verify → b ≠ s.session.chk →
    decodeByte s.session.view b = some (.vfyBad b) ∧
    exec (.vfyBad b) s = .next { s with
      session := { s.session with phase := .idle }, out := [.event (.checksumError s.session.cmd)] }

/-! ## The engine, the encoder, RESET -/

/-- R112 to R114, on the instance that is state, `chk` (notes/assumptions/7.md); that `XCMP` does not write the accumulator
is the spec's decision D9. -/
def Obligations.EngineOperationsOnChk : Prop :=
  ∀ (s : State) (b : Byte),
    exec .xclr s = .next { s with session := { s.session with chk := 0 }, out := [] } ∧
    exec (.xfold b) s = .next { s with session := { s.session with chk := s.session.chk ^^^ b }, out := [] } ∧
    exec (.xcmp b) s = .next { s with out := [.compared (decide (b = s.session.chk))] } ∧
    (decide (b = s.session.chk) = true ↔ s.session.chk ^^^ b = 0)

/-- R111: the two equations of the fold, and the parity of each bit position. -/
def Obligations.XorFoldIsBitwiseParity : Prop :=
  xorFold [] = 0x00 ∧
  (∀ (s : List Byte) (b : Byte), xorFold (s ++ [b]) = xorFold s ^^^ b) ∧
  (∀ (s : List Byte) (j : Nat), j < 8 →
    (xorFold s).getLsbD j = decide (s.countP (fun b => b.getLsbD j) % 2 = 1)) ∧
  ∀ (err : Bool) (c : Byte) (p : List Byte), p.length ≤ 255 →
    wellFormedFrame (frameBytes err c p (xorFold ([BitVec.ofNat 8 p.length, c] ++ p))) = true

/-- R115: the result does not depend on the order of folding; R116: two covered bytes exchanged are not detected. -/
def Obligations.XorFoldIgnoresOrder : Prop :=
  ∀ s t : List Byte, s.Perm t → xorFold s = xorFold t

/-- R116: a change of exactly one folded byte changes the fold. -/
def Obligations.XorFoldDetectsOneChange : Prop :=
  ∀ (s : List Byte) (k : Nat) (b : Byte), k < s.length → s[k]? ≠ some b → xorFold (s.set k b) ≠ xorFold s

/-- R121: the frame, and that it is the operation's whole effect. -/
def Obligations.EncodeEmitsFrame : Prop :=
  ∀ (s : State) (cmd : Byte) (p : List Byte), p.length ≤ 255 →
    ∃ l : Byte, l.toNat = p.length ∧
      (let f := [0x24, 0x4D, 0x3C] ++ [l] ++ [cmd] ++ p ++ [xorFold ([l, cmd] ++ p)]
       f.length = p.length + 6 ∧
       exec (.encOk cmd p) s = .next { s with egress := s.egress ++ f, out := [.encoded f] })

/-- R124: the rejection is the operation's result and nothing is emitted, whatever the length above 255. -/
def Obligations.OverlongEncodeIsRejected : Prop :=
  ∀ (s : State) (cmd : Byte) (p : List Byte), 255 < p.length →
    exec (.encRej cmd p) s = .next { s with out := [.payloadTooLarge] } ∧ encodeFrame cmd p = none

/-- R180, in any phase. `Idle` is the source's; the zeros are the spec's decision D5, and RESET as an operation its decision
D17; that a buffer byte then has no value is the model's reading of "unspecified" (notes/assumptions/2.md). -/
def Obligations.ResetCreatesSession : Prop :=
  ∀ s : State, ∃ d : Session,
    exec .reset s = .next { s with session := d, out := [] } ∧
    d.phase = .idle ∧ d.err = false ∧ d.len = 0 ∧ d.cmd = 0 ∧ d.chk = 0 ∧ d.idx = 0 ∧ ∀ a, d.buf.load a = none

/-- R33, R34, R185, of the state after reset. The zeros are the spec's decision D5, the buffer without values
notes/assumptions/2.md, the empty streams notes/assumptions/4.md. -/
def Obligations.StateAfterReset : Prop :=
  State.reset.session.phase = .idle ∧ State.reset.session.err = false ∧ State.reset.session.len = 0 ∧
  State.reset.session.cmd = 0 ∧ State.reset.session.chk = 0 ∧ State.reset.session.idx = 0 ∧
  (∀ a, State.reset.session.buf.load a = none) ∧ State.reset.session.buf.wf = true ∧
  State.reset.pending = [] ∧ State.reset.trace = [] ∧ State.reset.egress = []

/-! ## Wire frames as operations -/

/-- R60, R99 and R103 (a) for a normal frame: from `Idle`, whatever the other registers and the buffer hold, the bytes of the
frame give exactly one event; it is `FrameValid` with the frame's own fields where the checksum byte is right and
`ChecksumError` otherwise; the payload bytes, and no other, are stored (R94, R95). That the other registers keep after the
frame what the frame wrote (R35), and that `Verify` does not fold the checksum byte into `chk`, are the spec's decisions D6 and
D9 (notes/assumptions/14.md). One operation for a whole frame is notes/assumptions/5.md. -/
def Obligations.NormalFrameFromIdle : Prop :=
  ∀ (s : State) (cmd : Byte) (p : List Byte) (chk : Byte), s.session.phase = .idle → p.length ≤ 255 →
    ∃ m : Memory,
      exec (.frameReq cmd p chk) s = .next { s with
        session := { phase := .idle, err := false, len := lengthByte p, cmd := cmd,
                     chk := xorFold ([lengthByte p, cmd] ++ p), idx := lengthByte p, buf := m },
        out := [.event (if chk = xorFold ([lengthByte p, cmd] ++ p) then .frameValid cmd (lengthByte p) p false
                        else .checksumError cmd)] } ∧
      ∀ a, m.load a = if a < p.length then p[a]? else s.session.buf.load a

/-- The same for an error frame (R60, R99, R153, R158), its third byte 0x21 from notes/assumptions/1.md: with a wrong checksum
byte it is a `ChecksumError` and the peer's error is not reported. That the other registers keep after the frame what the frame
wrote (R35), and that `Verify` does not fold the checksum byte into `chk`, are the spec's decisions D6 and D9
(notes/assumptions/14.md). One operation for a whole frame is notes/assumptions/5.md. -/
def Obligations.ErrorFrameFromIdle : Prop :=
  ∀ (s : State) (cmd : Byte) (p : List Byte) (chk : Byte), s.session.phase = .idle → p.length ≤ 255 →
    ∃ m : Memory,
      exec (.frameErr cmd p chk) s = .next { s with
        session := { phase := .idle, err := true, len := lengthByte p, cmd := cmd,
                     chk := xorFold ([lengthByte p, cmd] ++ p), idx := lengthByte p, buf := m },
        out := [.event (if chk = xorFold ([lengthByte p, cmd] ++ p) then .frameValid cmd (lengthByte p) p true
                        else .checksumError cmd)] } ∧
      ∀ a, m.load a = if a < p.length then p[a]? else s.session.buf.load a

/-- R150 and R153: at the ports and for the consumer, a good error frame is kind 1 with the error flag, read as `PeerError`
with its command id, and a good normal frame is a message for the registry. The ports and the kind codes are the spec's
decisions D2 and D11 (notes/assumptions/13.md); the marker byte 0x21 is notes/assumptions/1.md; one operation for a whole frame
is the model's choice, notes/assumptions/5.md. -/
def Obligations.ErrorFrameReadsAsPeerError : Prop :=
  ∀ (s : State) (cmd : Byte) (p : List Byte), s.session.phase = .idle → p.length ≤ 255 →
    ∃ t u : State, ∃ e e' : Event,
      exec (.frameErr cmd p (xorFold ([lengthByte p, cmd] ++ p))) s = .next t ∧ t.out = [.event e] ∧
      deliver e = .peerError cmd ∧ t.evKind = 1 ∧ t.evErr = some true ∧ t.evCmd = some cmd ∧
      t.evPayload = some p ∧
      exec (.frameReq cmd p (xorFold ([lengthByte p, cmd] ++ p))) s = .next u ∧ u.out = [.event e'] ∧
      deliver e' = .message cmd p ∧ u.evKind = 1 ∧ u.evErr = some false

/-- R73 and R98: a frame handed over as one request has the effect of its bytes applied one by one: the same session, the
same results of the run, the same egress stream, the same requests left. One operation for a whole frame is the model's choice,
notes/assumptions/5.md. -/
def Obligations.FrameRequestEqualsItsBytes : Prop :=
  ∀ (s t : State) (f : List Byte) (i : Instr) (rest : List Request), decodeFrame f = .ok i →
    s.pending = .frame f :: rest → step s = .next t →
    ∃ u : State, Host.Core.run Sys2Proof.core f.length { s with pending := f.map .rx ++ rest } = .next u ∧
      u.session = t.session ∧ u.trace = t.trace ∧ u.egress = t.egress ∧ u.pending = t.pending

/-! ## Frames: what an operation leaves unchanged -/

/-- The columns "written in phase" of R36, and R42: in each phase a byte writes the registers named there and no other; only
`AccumulatePayload` writes the buffer, at `idx`; the streams are not touched. Of every operation of format `S`, in every
session. -/
def Obligations.ByteWritesOnlyItsPhaseRegisters : Prop :=
  ∀ (i : Instr) (b : Byte) (s t : State), i.byte? = some b → exec i s = .next t →
    (s.session.phase ≠ .seekMarker2 → t.session.err = s.session.err) ∧
    (s.session.phase ≠ .awaitLength → t.session.len = s.session.len) ∧
    (s.session.phase ≠ .awaitCommand → t.session.cmd = s.session.cmd) ∧
    (s.session.phase ≠ .awaitLength → s.session.phase ≠ .awaitCommand → s.session.phase ≠ .accumulatePayload →
      t.session.chk = s.session.chk) ∧
    (s.session.phase ≠ .awaitLength → s.session.phase ≠ .accumulatePayload → t.session.idx = s.session.idx) ∧
    (s.session.phase ≠ .accumulatePayload → t.session.buf = s.session.buf) ∧
    (∀ a, a ≠ s.session.payloadAddr → t.session.buf.load a = s.session.buf.load a) ∧
    t.pending = s.pending ∧ t.trace = s.trace ∧ t.egress = s.egress

/-- R21, R112 to R114, R180: what the other operations leave unchanged. ENCODE touches no register and no byte of the buffer;
the engine's operations touch `chk` alone; RESET touches the session alone. -/
def Obligations.OtherOperationsFrame : Prop :=
  ∀ (s t : State) (b cmd : Byte) (p : List Byte),
    ((exec (.encOk cmd p) s = .next t ∨ exec (.encRej cmd p) s = .next t) →
      t.session = s.session ∧ t.pending = s.pending ∧ t.trace = s.trace ∧ ∃ f, t.egress = s.egress ++ f) ∧
    ((exec .xclr s = .next t ∨ exec (.xfold b) s = .next t ∨ exec (.xcmp b) s = .next t) →
      t.session.phase = s.session.phase ∧ t.session.err = s.session.err ∧ t.session.len = s.session.len ∧
      t.session.cmd = s.session.cmd ∧ t.session.idx = s.session.idx ∧
      (∀ a, t.session.buf.load a = s.session.buf.load a) ∧
      t.pending = s.pending ∧ t.trace = s.trace ∧ t.egress = s.egress) ∧
    (exec .reset s = .next t → t.pending = s.pending ∧ t.trace = s.trace ∧ t.egress = s.egress)

/-- R99 with R36: a frame operation, from whatever session it goes on, leaves the streams alone; fed from `Idle` it leaves
every byte of the buffer from its payload's length on. -/
def Obligations.FrameOperationsFrame : Prop :=
  ∀ (i : Instr) (cmd : Byte) (p : List Byte) (chk : Byte) (s t : State),
    i = .frameReq cmd p chk ∨ i = .frameErr cmd p chk → exec i s = .next t →
    t.pending = s.pending ∧ t.trace = s.trace ∧ t.egress = s.egress ∧
    (s.session.phase = .idle → p.length ≤ 255 → ∀ a, p.length ≤ a → t.session.buf.load a = s.session.buf.load a)

/-! ## Which form a byte takes -/

/-- R80, R81 and notes/assumptions/6.md (the model's choice): `BYTE(b)` has the effect of the form the session selects,
whichever form of it is run; the one session in which no form applies is outside R25, and there it is refused; and ENCODE has
the form its payload's length selects. -/
def Obligations.SessionSelectsTheForm : Prop :=
  (∀ (i j : Instr) (b : Byte) (s : State), i.byte? = some b → decodeByte s.session.view b = some j →
    exec i s = exec j s) ∧
  (∀ (i : Instr) (b : Byte) (s : State), i.byte? = some b →
    (exec i s = .refused .noTransition ↔
      s.session.phase = .accumulatePayload ∧ s.session.len.toNat ≤ s.session.idx.toNat)) ∧
  (∀ (i : Instr) (b : Byte) (s : State), i.byte? = some b →
    (exec i s = .fault .unwrittenBuffer ↔
      s.session.phase = .verify ∧ b = s.session.chk ∧ s.session.buf.read 0 s.session.len.toNat = none)) ∧
  ∀ (cmd : Byte) (p : List Byte) (s : State), exec (.encOk cmd p) s = exec (.encRej cmd p) s

/-- R69 and R71: in every session the spec allows, exactly one row of the table applies to a byte; the decoder answers that
row's operation, which is well-formed, is `BYTE` of that byte, and is selected by the session. -/
def Obligations.ExactlyOneRowApplies : Prop :=
  ∀ (v : View) (b : Byte), (v.phase = .accumulatePayload → v.idx.toNat < v.len.toNat) →
    ∃ i, decodeByte v b = some i ∧ i.wellFormed = true ∧ i.byte? = some b ∧ i.selectedBy v = true ∧
      (rowsApplying v b).map (fun r => r.instr b) = [i]

/-- R156 and R159: a byte in `Verify` produces exactly one event and writes `phase <- Idle` and nothing else; a byte in any
other phase produces none. The port `ev_kind` and its codes 1 and 2 (R150, R184) are the spec's decisions D2 and D11
(notes/assumptions/13.md); that the other registers keep their values (R35) is its decision D6 (notes/assumptions/14.md). -/
def Obligations.EventsComeFromVerifyOnly : Prop :=
  ∀ (i : Instr) (b : Byte) (s t : State), i.byte? = some b → exec i s = .next t →
    (s.session.phase ≠ .verify → t.out = []) ∧
    (s.session.phase = .verify →
      t.session = { s.session with phase := .idle } ∧
      ∃ e, t.out = [.event e] ∧ (t.evKind = 1 ∨ t.evKind = 2))

/-! ## Encoding and decoding -/

/-- R60, R69, R72: the request of a well-formed operation decodes to that operation, in every session that selects its form;
no operand is dropped. -/
def Obligations.RequestsDecodeBack : Prop :=
  ∀ (i : Instr) (v : View) (r : Request), i.wellFormed = true → i.selectedBy v = true → encodeRequest i = some r →
    decodeRequest v r = .run i []

/-- R66: a receiver finds the end of a frame by its length byte: what follows the frame is left over. -/
def Obligations.FrameEndIsFoundByLength : Prop :=
  ∀ (err : Bool) (cmd : Byte) (p : List Byte) (chk : Byte) (rest : List Byte), p.length ≤ 255 →
    decodeFramePrefix (frameBytes err cmd p chk ++ rest) = .ok (frameInstr err cmd p chk, rest) ∧
    (frameBytes err cmd p chk).length = p.length + 6

/-- R60: a byte sequence the frame decoder accepts is the encoding of what it answers. -/
def Obligations.DecodedFramesEncodeBack : Prop :=
  ∀ (f : List Byte) (i : Instr), decodeFrame f = .ok i → encode i = f ∧ i.wellFormed = true

/-- R67: a well-formed frame is one that the frame decoder accepts, answering the frame operation with its fields, and whose
checksum byte is the fold of what it covers; `FrameCmd`, `FramePayload` and `FrameErr` give its fields. -/
def Obligations.WellFormedFramesAreDecoded : Prop :=
  ∀ f : List Byte, wellFormedFrame f = true ↔
    ∃ (err : Bool) (cmd : Byte) (p : List Byte), p.length ≤ 255 ∧
      f = frameBytes err cmd p (xorFold ([lengthByte p, cmd] ++ p)) ∧
      decodeFrame f = .ok (frameInstr err cmd p (xorFold ([lengthByte p, cmd] ++ p))) ∧
      frameCmd f = cmd ∧ framePayload f = p ∧ frameErr f = err

/-- R61, R69, R71: words written out from the table decode to the operations they stand for. -/
def Obligations.TableWordsDecode : Prop :=
  decodeTableWord 24 0x244D3C = some (.frameReq 0 [] 0) ∧ decodeTableWord 24 0x244D21 = some (.frameErr 0 [] 0) ∧
  decodeTableWord 24 0x244D3E = none ∧
  decodeTableWord 8 0x24 = some .idleHit ∧ decodeTableWord 8 0x4D = some .sm1Hit ∧
  decodeTableWord 8 0x3C = some .sm2Req ∧ decodeTableWord 8 0x21 = some .sm2Err ∧
  decodeTableWord 8 0x3E = some (.idleMiss 0x3E)

/-! ## One step of the machine -/

/-- R8, R69, R185: the first request is taken and decoded with the session's registers, the operation is run with the
request gone, and what it hands out joins the results. -/
def Obligations.StepRunsDecodedOperation : Prop :=
  ∀ (s : State) (r : Request) (rest more : List Request) (i : Instr), s.pending = r :: rest →
    decodeRequest s.session.view r = .run i more →
    ∀ t : State, (step s = .next t ↔
      ∃ u, exec i { s with pending := more ++ rest } = .next u ∧ t = { u with trace := u.trace ++ u.out })

/-- R81, R189: a step with nothing to apply changes no register and hands out nothing (a pause is a step of the model,
notes/assumptions/4.md). -/
def Obligations.PauseChangesNothing : Prop :=
  ∀ s : State, s.pending = [] → step s = .next { s with out := [] }

/-- R184 (the spec's decision D17): `rst` together with a byte is RESET, and the byte is discarded. -/
def Obligations.ResetWinsOverByte : Prop :=
  ∀ (s : State) (b : Byte) (rest : List Request), s.pending = .rstRx b :: rest →
    step s = step { s with pending := .rst :: rest } ∧
    step s = .next { s with session := Session.reset, pending := rest, out := [] }

/-- R73 and notes/assumptions/5.md (the model's choice): a `frame` request that is not exactly one frame is a feed of its
bytes. -/
def Obligations.OtherBytesAreAFeed : Prop :=
  ∀ (s : State) (e : DecodeError) (b : Byte) (bs : List Byte) (rest : List Request),
    decodeFrame (b :: bs) = .error e → s.pending = .frame (b :: bs) :: rest →
    step s = step { s with pending := (b :: bs).map .rx ++ rest }

/-- R191, R192, R41: results once handed out, and bytes once emitted, never change: a step only adds to them, and adds what
it hands out. -/
def Obligations.ResultsOnlyGrow : Prop :=
  ∀ s t : State, step s = .next t →
    t.trace = s.trace ++ t.out ∧
    t.egress = s.egress ++ t.txData

/-- R53, R126: ENCODE commutes with every operation on the session: the session, the egress stream and each operation's own
results are the same in either order. -/
def Obligations.EncodeCommutesWithDecoder : Prop :=
  ∀ (i : Instr) (cmd : Byte) (p : List Byte) (s u t : State),
    (i = .reset ∨ ∃ b, i.byte? = some b) → exec (.encOk cmd p) s = .next u → exec i u = .next t →
    ∃ u' t' : State, exec i s = .next u' ∧ exec (.encOk cmd p) u' = .next t' ∧
      t'.session = t.session ∧ t'.egress = t.egress ∧ u'.out = t.out ∧ t'.out = u.out

/-! ## The invariant -/

/-- R25, R28, R34: the session invariant is kept by every step, from every state that has it. -/
def Obligations.StepKeepsInvariant : Prop :=
  ∀ s t : State, s.Inv → step s = .next t → t.Inv

/-- The state after reset has the invariant (R33, R34). -/
def Obligations.ResetHasInvariant : Prop :=
  State.reset.Inv

/-- R80, R81, R161: from a state with the invariant, whatever is applied, the machine goes on for any number of steps: no
fault, no refusal. -/
def Obligations.MachineNeverStops : Prop :=
  ∀ (s : State) (k : Nat), s.Inv → s.safeFor k

/-! ## Runs of the decoder -/

/-- R98: the result does not depend on how a byte sequence is cut. -/
def Obligations.ChunkingDoesNotMatter : Prop :=
  ∀ (d : Session) (x y : List Byte),
    decRun d (x ++ y) = (decRun d x).andThen fun r =>
      (decRun r.1 y).andThen fun q => .next (q.1, r.2 ++ q.2)

/-- R99: from `Idle`, whatever else the session holds, the bytes of a well-formed frame give no event but on the last byte,
there exactly the frame's own `FrameValid`, and the phase is `Idle` again; applied to the machine one byte a step. -/
def Obligations.WellFormedFrameGivesOneEvent : Prop :=
  ∀ (s : State) (f : List Byte) (rest : List Request), s.session.phase = .idle → wellFormedFrame f = true →
    s.feeds f rest →
    (∃ u, Host.Core.run Sys2Proof.core (f.length - 1) s = .next u ∧ u.trace = s.trace) ∧
    ∃ t, Host.Core.run Sys2Proof.core f.length s = .next t ∧ t.trace = s.trace ++ [.event (frameEvent f)] ∧
      t.session.phase = .idle ∧ t.pending = rest ∧ t.egress = s.egress

/-- R128 with R127: a request encoded and its bytes fed back give the same command id and payload. -/
def Obligations.EncodeThenDecodeRoundTrip : Prop :=
  ∀ (s : State) (cmd : Byte) (p : List Byte) (rest : List Request), s.session.phase = .idle → p.length ≤ 255 →
    s.pending = .enc cmd p :: ((encodeBytes cmd p).map .rx ++ rest) →
    ∃ t, Host.Core.run Sys2Proof.core (p.length + 7) s = .next t ∧
      t.trace = s.trace ++ [.encoded (encodeBytes cmd p), .event (.frameValid cmd (lengthByte p) p false)] ∧
      t.session.phase = .idle ∧ t.pending = rest ∧ t.egress = s.egress ++ encodeBytes cmd p

/-- R127, R125: what ENCODE emits is a well-formed normal frame with the operands in it; it never begins with the error
marker (the last is the spec's decision D13). -/
def Obligations.EncodedFramesAreWellFormed : Prop :=
  ∀ (cmd : Byte) (p f : List Byte), encodeFrame cmd p = some f →
    wellFormedFrame f = true ∧ frameCmd f = cmd ∧ framePayload f = p ∧ frameErr f = false ∧
    f.take 3 ≠ [0x24, 0x4D, 0x21]

/-- R33, R34, R35: none of the registers `err`, `len`, `cmd`, `chk`, `idx` and no byte of the buffer can be observed at the
start of a frame: two sessions in `Idle` give the same events for every byte sequence, and none of them stops. -/
def Obligations.IdleSessionsAreIndistinguishable : Prop :=
  ∀ (d d' : Session) (bs : List Byte), d.phase = .idle → d'.phase = .idle →
    ∃ (e e' : Session) (events : List Event), decRun d bs = .next (e, events) ∧ decRun d' bs = .next (e', events) ∧
      e.phase = e'.phase

/-- R100, first sentence: after noise, exactly the frame's event comes, on its last byte, if and only if the noise gave no
event and left the decoder in `Idle`. -/
def Obligations.NoiseThenFrameExactly : Prop :=
  ∀ (d : Session) (n f : List Byte), d.phase = .idle → wellFormedFrame f = true →
    (((∃ e, decRun d (n ++ f) = .next (e, [frameEvent f])) ∧ ∃ e, decRun d (n ++ f.dropLast) = .next (e, [])) ↔
      ∃ e, decRun d n = .next (e, []) ∧ e.phase = .idle)

/-- R100: noise without the byte `0x24` changes nothing; noise that contains neither marker gives no event and never leaves
the three marker-seeking phases. -/
def Obligations.NoiseWithoutMarkerIsSilent : Prop :=
  ∀ (d : Session) (n : List Byte), d.phase = .idle →
    (0x24 ∉ n → decRun d n = .next (d, [])) ∧
    (¬ [0x24, 0x4D, 0x3C] <:+: n → ¬ [0x24, 0x4D, 0x21] <:+: n →
      ∃ e, decRun d n = .next (e, []) ∧ (e.phase = .idle ∨ e.phase = .seekMarker1 ∨ e.phase = .seekMarker2))

/-- R101: from any session the spec allows, the decoder is in `Idle` after at most 260 further bytes, whatever they are. -/
def Obligations.IdleWithin260Bytes : Prop :=
  ∀ (d : Session) (bs : List Byte), d.Inv → d.phase ≠ .idle → 260 ≤ bs.length →
    ∃ k, 0 < k ∧ k ≤ 260 ∧ ∃ (e : Session) (events : List Event), decRun d (bs.take k) = .next (e, events) ∧
      e.phase = .idle

/-- R101, R102: from `AccumulatePayload` the rest of the frame is exactly `len - idx + 1` bytes: no event before the last of
them, one event on it, and `Idle` after it. -/
def Obligations.PayloadPhaseEndsExactly : Prop :=
  ∀ (d : Session) (bs : List Byte), d.Inv → d.phase = .accumulatePayload →
    bs.length = d.len.toNat - d.idx.toNat + 1 →
    (∀ k, k < bs.length → ∃ e, decRun d (bs.take k) = .next (e, []) ∧ e.phase ≠ .idle) ∧
    ∃ e event, decRun d bs = .next (e, [event]) ∧ e.phase = .idle

/-- R103 (a): a change of the command id, of a payload byte or of the checksum byte of a well-formed frame is always
reported, with the command id that was received. -/
def Obligations.OneCorruptByteIsReported : Prop :=
  ∀ (d : Session) (f : List Byte) (k : Nat) (b : Byte), d.phase = .idle → wellFormedFrame f = true →
    4 ≤ k → k < f.length → f[k]? ≠ some b →
    ∃ e, decRun d (f.set k b) = .next (e, [.checksumError ((f.set k b).getD 4 0)]) ∧ e.phase = .idle

/-- R103 (c): a third marker byte changed to the other one is not detected: the frame is delivered with the flag
inverted. -/
def Obligations.MarkerIsOutsideChecksum : Prop :=
  ∀ (d : Session) (cmd : Byte) (p : List Byte), d.phase = .idle → p.length ≤ 255 →
    ∀ err : Bool, ∃ e, decRun d ((frameBytes err cmd p (xorFold ([lengthByte p, cmd] ++ p))).set 2 (Config.marker3 !err))
      = .next (e, [.frameValid cmd (lengthByte p) p !err])

/-- R137, of the registry's numeric fields: reading the bytes of a value gives the value back, for the three widths. -/
def Obligations.FieldBytesReadBack : Prop :=
  ∀ (k : Nat), k = 1 ∨ k = 2 ∨ k = 4 →
    (∀ v : Int, -2 ^ (8 * k - 1) ≤ v → v < 2 ^ (8 * k - 1) →
      (signedBytes k v).length = k ∧ fieldSigned (signedBytes k v) = v) ∧
    ∀ u : Nat, u < 2 ^ (8 * k) → fieldUnsigned (unsignedBytes k u) = u

/-- R141 and R139, with R137, of the one message layout: an attitude message in range has a payload of six bytes, and the event
of its frame reads back as the same roll, pitch and yaw; a payload of any other length is no attitude message. -/
def Obligations.AttitudeMessageReadsBack : Prop :=
  (∀ a : Attitude, -2 ^ 15 ≤ a.roll → a.roll < 2 ^ 15 → -2 ^ 15 ≤ a.pitch → a.pitch < 2 ^ 15 →
    -2 ^ 15 ≤ a.yaw → a.yaw < 2 ^ 15 →
    a.payload.length = 6 ∧
    Attitude.ofDelivery (deliver (.frameValid attitudeCmd 6 a.payload false)) = some a) ∧
  ∀ p : List Byte, p.length ≠ 6 →
    Attitude.ofDelivery (deliver (.frameValid attitudeCmd (lengthByte p) p false)) = none
end

