-- ==== Sys2Proof/Laws/Decode.lean ====
section
/-! SUPPORT. The laws of the byte decoder. -/

namespace Sys2Proof

/-- The byte decoder answers the operation that the view selects. -/
theorem decodeByte_selected {i : Instr} {v : View} {b : Byte} (hw : i.wellFormed = true)
    (hs : i.selectedBy v = true) (hb : i.byte? = some b) : decodeByte v b = some i := by
  cases i <;> simp only [Instr.byte?, Option.some.injEq, reduceCtorEq] at hb <;> subst hb <;>
   simp only [Instr.selectedBy, Instr.wellFormed, decide_eq_true_eq] at hs hw
  case idleHit => rw [decodeByte, hs]; rfl
  case idleMiss => rw [decodeByte, hs]; exact if_neg hw
  case sm1Hit => rw [decodeByte, hs]; rfl
  case sm1Miss => rw [decodeByte, hs]; exact if_neg hw
  case sm2Req => rw [decodeByte, hs]; rfl
  case sm2Err => rw [decodeByte, hs]; rfl
  case sm2Miss => rw [decodeByte, hs]; exact (if_neg hw.1).trans (if_neg hw.2)
  case len => rw [decodeByte, hs]
  case cmdNz => rw [decodeByte, hs.1]; exact if_neg hs.2
  case cmdZ => rw [decodeByte, hs.1]; exact if_pos hs.2
  case payMore => rw [decodeByte, hs.1]; exact if_pos hs.2
  case payLast => rw [decodeByte, hs.1]; exact (if_neg (by omega)).trans (if_pos hs.2)
  case vfyOk => rw [decodeByte, hs.1]; exact if_pos hs.2
  case vfyBad => rw [decodeByte, hs.1]; exact if_neg hs.2

/-- The operation the byte decoder answers consumes that byte. -/
theorem decodeByte_byte {v : View} {b : Byte} {i : Instr} (h : decodeByte v b = some i) : i.byte? = some b := by
  unfold decodeByte at h
  split at h
  all_goals (repeat' split at h)
  all_goals first
    | (cases h; rfl)
    | (cases h; simp_all [Instr.byte?])
    | cases h

/-- The markers of R61 are recognised. -/
theorem markerKind_marker3 (err : Bool) :
    markerKind Config.marker1 Config.marker2 (Config.marker3 err) = some err := by
  cases err <;> rfl

end Sys2Proof
end

