-- ==== Sys2Proof/Laws/Engine.lean ====
section
/-! SUPPORT. The laws of the XOR fold that the decoder's and the encoder's proofs cite. -/

namespace Sys2Proof.Machine

@[simp] theorem engineClear_eq : engineClear = 0 := rfl

@[simp] theorem engineFold_eq (acc b : Byte) : engineFold acc b = acc ^^^ b := rfl

@[simp] theorem engineCmp_iff (acc b : Byte) : engineCmp acc b = true ↔ b = acc := by simp [engineCmp]

@[simp] theorem Session.xcmp_iff (d : Session) (b : Byte) : d.xcmp b = true ↔ b = d.chk := by simp [Session.xcmp]

@[simp] theorem Session.xcmp_false_iff (d : Session) (b : Byte) : d.xcmp b = false ↔ b ≠ d.chk := by
  simp [Session.xcmp, engineCmp]

@[simp] theorem xorFold_nil : xorFold [] = 0 := rfl

/-- The second line of the definition in R111. -/
theorem xorFold_snoc (s : List Byte) (b : Byte) : xorFold (s ++ [b]) = xorFold s ^^^ b := by
  simp [xorFold]

/-- A fold from any accumulator is the accumulator folded with the bytes' own fold. -/
theorem foldl_engineFold (s : List Byte) (acc : Byte) : s.foldl engineFold acc = acc ^^^ xorFold s := by
  induction s using List.reverseRecOn with
  | nil => simp
  | append_singleton s b ih => rw [xorFold_snoc, List.foldl_append, ih]; simp [BitVec.xor_assoc]

theorem xorFold_cons (b : Byte) (s : List Byte) : xorFold (b :: s) = b ^^^ xorFold s := by
  rw [xorFold, List.foldl_cons, foldl_engineFold]; simp

theorem xorFold_append (s t : List Byte) : xorFold (s ++ t) = xorFold s ^^^ xorFold t := by
  rw [xorFold, List.foldl_append, foldl_engineFold, foldl_engineFold]; simp

/-- What the encoder folds (R122). -/
theorem encodeChecksum_eq (cmd : Byte) (payload : List Byte) :
    encodeChecksum cmd payload = xorFold (lengthByte payload :: cmd :: payload) := rfl

/-- The length byte of a payload that fits counts its bytes (R121: "no truncation"). -/
theorem lengthByte_toNat {payload : List Byte} (h : payload.length ≤ Config.maxPayload) :
    (lengthByte payload).toNat = payload.length := by
  have h' : payload.length ≤ 255 := h
  simp only [lengthByte, BitVec.toNat_ofNat]; omega

end Sys2Proof.Machine
end

