-- ==== Sys2Proof/Laws/Memory.lean ====
section
/-! SUPPORT. The laws of the scratch payload buffer: what a read after a write gives, that a write leaves every other byte
alone, what a multi-byte read gives, and that a write keeps the canonical form. -/

namespace Sys2Proof.Machine

@[simp] theorem Memory.load_nil (a : Nat) : Memory.load [] a = none := rfl

@[simp] theorem Memory.load_store_same (m : Memory) (a : Nat) (v : Byte) : (m.store a v).load a = some v := by
  induction m with
  | nil => simp [Memory.store, Memory.load]
  | cons kw m ih =>
    obtain ⟨k, w⟩ := kw
    by_cases h : a < k
    · simp [Memory.store, Memory.load, h]
    · by_cases h' : a = k
      · simp [Memory.store, Memory.load, h']
      · simp [Memory.store, Memory.load, h, h', ih, Ne.symm h']

theorem Memory.load_store_other (m : Memory) {a a' : Nat} (v : Byte) (h : a' ≠ a) :
    (m.store a v).load a' = m.load a' := by
  induction m with
  | nil => simp [Memory.store, Memory.load, Ne.symm h]
  | cons kw m ih =>
    obtain ⟨k, w⟩ := kw
    by_cases hk : a < k
    · simp [Memory.store, Memory.load, hk, Ne.symm h]
    · by_cases hk' : a = k
      · subst hk'
        simp [Memory.store, Memory.load, Ne.symm h]
      · simp [Memory.store, Memory.load, hk, hk', ih]

/-- One byte read after one byte written. -/
theorem Memory.load_store (m : Memory) (a a' : Nat) (v : Byte) :
    (m.store a v).load a' = if a' = a then some v else m.load a' := by
  split
  · next h => rw [h, Memory.load_store_same]
  · next h => exact m.load_store_other v h

@[simp] theorem Memory.read_zero (m : Memory) (a : Nat) : m.read a 0 = some [] := rfl

/-- A read of `n + 1` bytes is a read of one and a read of `n`. -/
theorem Memory.read_succ (m : Memory) (a n : Nat) :
    m.read a (n + 1) = (m.load a).bind fun b => (m.read (a + 1) n).map (b :: ·) := by
  rw [Memory.read]
  cases m.load a <;> cases m.read (a + 1) n <;> rfl

/-- A read gives as many bytes as it asks for. -/
theorem Memory.read_length {m : Memory} {n : Nat} : ∀ {a : Nat} {p : List Byte}, m.read a n = some p → p.length = n := by
  induction n with
  | zero => intro a p h; simp at h; simp [← h]
  | succ n ih =>
    intro a p h
    rw [Memory.read_succ] at h
    cases hb : m.load a with
    | none => simp [hb] at h
    | some b =>
      cases hr : m.read (a + 1) n with
      | none => simp [hb, hr] at h
      | some q => simp [hb, hr] at h; simp [← h, ih hr]

/-- A read looks at its own addresses only. -/
theorem Memory.read_congr {m m' : Memory} {n : Nat} : ∀ {a : Nat},
    (∀ k, a ≤ k → k < a + n → m'.load k = m.load k) → m'.read a n = m.read a n := by
  induction n with
  | zero => intro a _; rfl
  | succ n ih =>
    intro a h
    rw [Memory.read_succ, Memory.read_succ, h a (by omega) (by omega), ih (fun k hk hk' => h k (by omega) (by omega))]

/-- A read is not touched by a write outside its addresses. -/
theorem Memory.read_store_outside (m : Memory) {a n k : Nat} (v : Byte) (h : k < a ∨ a + n ≤ k) :
    (m.store k v).read a n = m.read a n :=
  Memory.read_congr fun j hj hj' => m.load_store_other v (by omega)

/-- A read of `n + 1` bytes ends with the byte at its last address. -/
theorem Memory.read_snoc (m : Memory) (n : Nat) : ∀ (a : Nat),
    m.read a (n + 1) = (m.read a n).bind fun p => (m.load (a + n)).map fun b => p ++ [b] := by
  induction n with
  | zero => intro a; rw [Memory.read_succ]; cases m.load a <;> simp
  | succ n ih =>
    intro a
    rw [Memory.read_succ, ih, Memory.read_succ m a n]
    cases m.load a <;> cases m.read (a + 1) n <;> simp [Nat.add_assoc, Nat.add_comm 1 n]
    cases m.load (a + (n + 1)) <;> rfl

/-- Writing the byte after `n` bytes that have values makes `n + 1` bytes that have values. -/
theorem Memory.read_store_end {m : Memory} {n : Nat} {p : List Byte} (v : Byte) (h : m.read 0 n = some p) :
    (m.store n v).read 0 (n + 1) = some (p ++ [v]) := by
  rw [Memory.read_snoc, Memory.read_store_outside m v (by omega), h]
  simp

@[simp] theorem Memory.wf_nil : Memory.wf [] = true := rfl

/-- A canonical list stays canonical when a rising address is put before it. -/
theorem Memory.wf_cons {k : Nat} {v : Byte} {m : Memory} :
    Memory.wf ((k, v) :: m) = true ↔ k < Config.bufCap ∧ m.wf = true ∧ ∀ e ∈ m, k < e.1 := by
  induction m generalizing k v with
  | nil => simp [Memory.wf]
  | cons kw m ih =>
    obtain ⟨k', v'⟩ := kw
    simp only [Memory.wf, Bool.and_eq_true, decide_eq_true_eq]
    constructor
    · rintro ⟨h, hm⟩
      refine ⟨?_, hm, ?_⟩
      · have := (ih.1 hm).1; omega
      · intro e he
        rcases List.mem_cons.1 he with rfl | he
        · exact h
        · have := (ih.1 hm).2.2 e he; omega
    · rintro ⟨_, hm, h⟩
      exact ⟨h (k', v') (by simp), hm⟩

theorem Memory.mem_store {m : Memory} {a : Nat} {v : Byte} {e : Host.Cell} (h : e ∈ m.store a v) :
    e = (a, v) ∨ e ∈ m := by
  induction m with
  | nil => simpa [Memory.store] using h
  | cons kw m ih =>
    obtain ⟨k, w⟩ := kw
    rw [Memory.store] at h
    split at h
    · simpa using h
    · split at h
      · rcases List.mem_cons.1 h with rfl | h
        · exact .inl rfl
        · exact .inr (List.mem_cons_of_mem _ h)
      · rcases List.mem_cons.1 h with rfl | h
        · exact .inr (by simp)
        · exact (ih h).imp id (List.mem_cons_of_mem _)

/-- A write inside the buffer keeps the canonical form. -/
theorem Memory.store_wf {m : Memory} {a : Nat} (v : Byte) (hm : m.wf = true) (ha : a < Config.bufCap) :
    (m.store a v).wf = true := by
  induction m with
  | nil => simpa [Memory.store, Memory.wf] using ha
  | cons kw m ih =>
    obtain ⟨k, w⟩ := kw
    have hk := Memory.wf_cons.1 hm
    rw [Memory.store]
    split
    · next h =>
      refine Memory.wf_cons.2 ⟨ha, hm, fun e he => ?_⟩
      rcases List.mem_cons.1 he with rfl | he
      · exact h
      · have := hk.2.2 e he; omega
    · next h =>
      split
      · next h' => exact Memory.wf_cons.2 ⟨ha, hk.2.1, fun e he => h' ▸ hk.2.2 e he⟩
      · next h' =>
        refine Memory.wf_cons.2 ⟨hk.1, ih hk.2.1, fun e he => ?_⟩
        rcases Memory.mem_store he with rfl | he
        · simp only; omega
        · exact hk.2.2 e he

/-- Equal buffers are equal data: two canonical lists in which every address reads alike are one list. -/
theorem Memory.ext_of_wf {m m' : Memory} (h : m.wf = true) (h' : m'.wf = true) (hl : ∀ a, m.load a = m'.load a) :
    m = m' := by
  have absent : ∀ {m : Memory} {a : Nat}, (∀ e ∈ m, a < e.1) → m.load a = none := by
    intro m a hm
    induction m with
    | nil => rfl
    | cons kw m ih =>
      have := hm kw (by simp)
      rw [Memory.load, if_neg (by omega)]
      exact ih fun e he => hm e (List.mem_cons_of_mem _ he)
  induction m generalizing m' with
  | nil =>
    cases m' with
    | nil => rfl
    | cons kw m' => have := hl kw.1; simp [Memory.load] at this
  | cons kw m ih =>
    cases m' with
    | nil => have := hl kw.1; simp [Memory.load] at this
    | cons kw' m' =>
      obtain ⟨k, v⟩ := kw
      obtain ⟨k', v'⟩ := kw'
      have hw := Memory.wf_cons.1 h
      have hw' := Memory.wf_cons.1 h'
      have hk : k = k' := by
        by_contra hne
        rcases Nat.lt_or_gt_of_ne hne with hlt | hlt
        · have h1 := hl k
          rw [Memory.load, if_pos rfl, Memory.load, if_neg (by omega),
            absent fun e he => by have := hw'.2.2 e he; omega] at h1
          cases h1
        · have h1 := hl k'
          rw [Memory.load, if_neg (by omega), Memory.load, if_pos rfl,
            absent fun e he => by have := hw.2.2 e he; omega] at h1
          cases h1
      subst hk
      have hv : v = v' := by have := hl k; simpa [Memory.load] using this
      subst hv
      refine congrArg _ (ih hw.2.1 hw'.2.1 fun a => ?_)
      by_cases ha : a = k
      · subst ha
        rw [absent hw.2.2, absent hw'.2.2]
      · have := hl a
        rwa [Memory.load, if_neg (Ne.symm ha), Memory.load, if_neg (Ne.symm ha)] at this

/-- Each byte of a multi-byte read is the byte at its address. -/
theorem Memory.getElem?_of_read {m : Memory} :
    ∀ {n a : Nat} {p : List Byte}, m.read a n = some p → ∀ k, k < p.length → p[k]? = m.load (a + k) := by
  intro n
  induction n with
  | zero => intro a p h; simp at h; subst h; simp
  | succ n ih =>
    intro a p h k hk
    rw [Memory.read_succ] at h
    cases hb : m.load a with
    | none => simp [hb] at h
    | some b =>
      cases hr : m.read (a + 1) n with
      | none => simp [hb, hr] at h
      | some q =>
        simp [hb, hr] at h; subst h
        cases k with
        | zero => simp [hb]
        | succ k => simp at hk; simpa [Nat.add_assoc, Nat.add_comm 1 k] using ih hr k hk

/-- A read gives `p` where the buffer holds the bytes of `p`, one after another. -/
theorem Memory.read_of_loads :
    ∀ {p : List Byte} {m : Memory} {a : Nat}, (∀ k, k < p.length → m.load (a + k) = p[k]?) →
      m.read a p.length = some p := by
  intro p
  induction p with
  | nil => intro m a _; rfl
  | cons b p ih =>
    intro m a h
    rw [List.length_cons, Memory.read_succ, show m.load a = some b by simpa using h 0 (by simp), ih (a := a + 1)]
    · rfl
    · intro k hk
      have := h (k + 1) (by simpa using hk)
      simpa [Nat.add_assoc, Nat.add_comm 1 k] using this

end Sys2Proof.Machine
end

