-- ==== Sys2Proof/Laws/State.lean ====
section
/-! SUPPORT. One lemma per field per update of the session and of the machine state, so that no later proof unfolds a
record update. -/

namespace Sys2Proof.Machine

section
variable (d : Session)

/-! `setPhase` -/

@[simp] theorem Session.setPhase_phase (p : Phase) : (d.setPhase p).phase = p := rfl
@[simp] theorem Session.setPhase_err (p : Phase) : (d.setPhase p).err = d.err := rfl
@[simp] theorem Session.setPhase_len (p : Phase) : (d.setPhase p).len = d.len := rfl
@[simp] theorem Session.setPhase_cmd (p : Phase) : (d.setPhase p).cmd = d.cmd := rfl
@[simp] theorem Session.setPhase_chk (p : Phase) : (d.setPhase p).chk = d.chk := rfl
@[simp] theorem Session.setPhase_idx (p : Phase) : (d.setPhase p).idx = d.idx := rfl
@[simp] theorem Session.setPhase_buf (p : Phase) : (d.setPhase p).buf = d.buf := rfl

/-! `setErr` -/

@[simp] theorem Session.setErr_phase (e : Bool) : (d.setErr e).phase = d.phase := rfl
@[simp] theorem Session.setErr_err (e : Bool) : (d.setErr e).err = e := rfl
@[simp] theorem Session.setErr_len (e : Bool) : (d.setErr e).len = d.len := rfl
@[simp] theorem Session.setErr_cmd (e : Bool) : (d.setErr e).cmd = d.cmd := rfl
@[simp] theorem Session.setErr_chk (e : Bool) : (d.setErr e).chk = d.chk := rfl
@[simp] theorem Session.setErr_idx (e : Bool) : (d.setErr e).idx = d.idx := rfl
@[simp] theorem Session.setErr_buf (e : Bool) : (d.setErr e).buf = d.buf := rfl

/-! `setLen` -/

@[simp] theorem Session.setLen_phase (b : Byte) : (d.setLen b).phase = d.phase := rfl
@[simp] theorem Session.setLen_err (b : Byte) : (d.setLen b).err = d.err := rfl
@[simp] theorem Session.setLen_len (b : Byte) : (d.setLen b).len = b := rfl
@[simp] theorem Session.setLen_cmd (b : Byte) : (d.setLen b).cmd = d.cmd := rfl
@[simp] theorem Session.setLen_chk (b : Byte) : (d.setLen b).chk = d.chk := rfl
@[simp] theorem Session.setLen_idx (b : Byte) : (d.setLen b).idx = d.idx := rfl
@[simp] theorem Session.setLen_buf (b : Byte) : (d.setLen b).buf = d.buf := rfl

/-! `setCmd` -/

@[simp] theorem Session.setCmd_phase (b : Byte) : (d.setCmd b).phase = d.phase := rfl
@[simp] theorem Session.setCmd_err (b : Byte) : (d.setCmd b).err = d.err := rfl
@[simp] theorem Session.setCmd_len (b : Byte) : (d.setCmd b).len = d.len := rfl
@[simp] theorem Session.setCmd_cmd (b : Byte) : (d.setCmd b).cmd = b := rfl
@[simp] theorem Session.setCmd_chk (b : Byte) : (d.setCmd b).chk = d.chk := rfl
@[simp] theorem Session.setCmd_idx (b : Byte) : (d.setCmd b).idx = d.idx := rfl
@[simp] theorem Session.setCmd_buf (b : Byte) : (d.setCmd b).buf = d.buf := rfl

/-! `setChk` -/

@[simp] theorem Session.setChk_phase (b : Byte) : (d.setChk b).phase = d.phase := rfl
@[simp] theorem Session.setChk_err (b : Byte) : (d.setChk b).err = d.err := rfl
@[simp] theorem Session.setChk_len (b : Byte) : (d.setChk b).len = d.len := rfl
@[simp] theorem Session.setChk_cmd (b : Byte) : (d.setChk b).cmd = d.cmd := rfl
@[simp] theorem Session.setChk_chk (b : Byte) : (d.setChk b).chk = b := rfl
@[simp] theorem Session.setChk_idx (b : Byte) : (d.setChk b).idx = d.idx := rfl
@[simp] theorem Session.setChk_buf (b : Byte) : (d.setChk b).buf = d.buf := rfl

/-! `setIdx` -/

@[simp] theorem Session.setIdx_phase (b : Byte) : (d.setIdx b).phase = d.phase := rfl
@[simp] theorem Session.setIdx_err (b : Byte) : (d.setIdx b).err = d.err := rfl
@[simp] theorem Session.setIdx_len (b : Byte) : (d.setIdx b).len = d.len := rfl
@[simp] theorem Session.setIdx_cmd (b : Byte) : (d.setIdx b).cmd = d.cmd := rfl
@[simp] theorem Session.setIdx_chk (b : Byte) : (d.setIdx b).chk = d.chk := rfl
@[simp] theorem Session.setIdx_idx (b : Byte) : (d.setIdx b).idx = b := rfl
@[simp] theorem Session.setIdx_buf (b : Byte) : (d.setIdx b).buf = d.buf := rfl

/-! `setBuf` -/

@[simp] theorem Session.setBuf_phase (a : Nat) (b : Byte) : (d.setBuf a b).phase = d.phase := rfl
@[simp] theorem Session.setBuf_err (a : Nat) (b : Byte) : (d.setBuf a b).err = d.err := rfl
@[simp] theorem Session.setBuf_len (a : Nat) (b : Byte) : (d.setBuf a b).len = d.len := rfl
@[simp] theorem Session.setBuf_cmd (a : Nat) (b : Byte) : (d.setBuf a b).cmd = d.cmd := rfl
@[simp] theorem Session.setBuf_chk (a : Nat) (b : Byte) : (d.setBuf a b).chk = d.chk := rfl
@[simp] theorem Session.setBuf_idx (a : Nat) (b : Byte) : (d.setBuf a b).idx = d.idx := rfl
@[simp] theorem Session.setBuf_buf (a : Nat) (b : Byte) : (d.setBuf a b).buf = d.buf.store a b := rfl

/-! The engine's operations on `chk` -/

@[simp] theorem Session.xclr_phase : d.xclr.phase = d.phase := rfl
@[simp] theorem Session.xclr_err : d.xclr.err = d.err := rfl
@[simp] theorem Session.xclr_len : d.xclr.len = d.len := rfl
@[simp] theorem Session.xclr_cmd : d.xclr.cmd = d.cmd := rfl
@[simp] theorem Session.xclr_chk : d.xclr.chk = 0 := rfl
@[simp] theorem Session.xclr_idx : d.xclr.idx = d.idx := rfl
@[simp] theorem Session.xclr_buf : d.xclr.buf = d.buf := rfl
@[simp] theorem Session.xfold_phase (b : Byte) : (d.xfold b).phase = d.phase := rfl
@[simp] theorem Session.xfold_err (b : Byte) : (d.xfold b).err = d.err := rfl
@[simp] theorem Session.xfold_len (b : Byte) : (d.xfold b).len = d.len := rfl
@[simp] theorem Session.xfold_cmd (b : Byte) : (d.xfold b).cmd = d.cmd := rfl
@[simp] theorem Session.xfold_chk (b : Byte) : (d.xfold b).chk = d.chk ^^^ b := rfl
@[simp] theorem Session.xfold_idx (b : Byte) : (d.xfold b).idx = d.idx := rfl
@[simp] theorem Session.xfold_buf (b : Byte) : (d.xfold b).buf = d.buf := rfl

/-! The flag -/

@[simp] theorem Session.clearErr_phase : d.clearErr.phase = d.phase := rfl
@[simp] theorem Session.clearErr_err : d.clearErr.err = false := rfl
@[simp] theorem Session.clearErr_len : d.clearErr.len = d.len := rfl
@[simp] theorem Session.clearErr_cmd : d.clearErr.cmd = d.cmd := rfl
@[simp] theorem Session.clearErr_chk : d.clearErr.chk = d.chk := rfl
@[simp] theorem Session.clearErr_idx : d.clearErr.idx = d.idx := rfl
@[simp] theorem Session.clearErr_buf : d.clearErr.buf = d.buf := rfl
@[simp] theorem Session.raiseErr_phase : d.raiseErr.phase = d.phase := rfl
@[simp] theorem Session.raiseErr_err : d.raiseErr.err = true := rfl
@[simp] theorem Session.raiseErr_len : d.raiseErr.len = d.len := rfl
@[simp] theorem Session.raiseErr_cmd : d.raiseErr.cmd = d.cmd := rfl
@[simp] theorem Session.raiseErr_chk : d.raiseErr.chk = d.chk := rfl
@[simp] theorem Session.raiseErr_idx : d.raiseErr.idx = d.idx := rfl
@[simp] theorem Session.raiseErr_buf : d.raiseErr.buf = d.buf := rfl

/-! The conditions of the transition rules -/

@[simp] theorem Session.lenZero_iff : d.lenZero = true ↔ d.len = 0 := by simp [Session.lenZero]
@[simp] theorem Session.lenZero_false_iff : d.lenZero = false ↔ d.len ≠ 0 := by simp [Session.lenZero]
@[simp] theorem Session.moreFollow_iff : d.moreFollow = true ↔ d.idx.toNat + 1 < d.len.toNat := by
  simp [Session.moreFollow]
@[simp] theorem Session.lastOne_iff : d.lastOne = true ↔ d.idx.toNat + 1 = d.len.toNat := by
  simp [Session.lastOne]

/-! The view of the byte decoder -/

@[simp] theorem Session.view_phase : d.view.phase = d.phase := rfl
@[simp] theorem Session.view_len : d.view.len = d.len := rfl
@[simp] theorem Session.view_idx : d.view.idx = d.idx := rfl
@[simp] theorem Session.view_chk : d.view.chk = d.chk := rfl

end

section
variable (s : State)

@[simp] theorem State.setSession_session (d : Session) : (s.setSession d).session = d := rfl
@[simp] theorem State.setSession_pending (d : Session) : (s.setSession d).pending = s.pending := rfl
@[simp] theorem State.setSession_out (d : Session) : (s.setSession d).out = s.out := rfl
@[simp] theorem State.setSession_trace (d : Session) : (s.setSession d).trace = s.trace := rfl
@[simp] theorem State.setSession_egress (d : Session) : (s.setSession d).egress = s.egress := rfl

@[simp] theorem State.setPending_session (q : List Request) : (s.setPending q).session = s.session := rfl
@[simp] theorem State.setPending_pending (q : List Request) : (s.setPending q).pending = q := rfl
@[simp] theorem State.setPending_out (q : List Request) : (s.setPending q).out = s.out := rfl
@[simp] theorem State.setPending_trace (q : List Request) : (s.setPending q).trace = s.trace := rfl
@[simp] theorem State.setPending_egress (q : List Request) : (s.setPending q).egress = s.egress := rfl

@[simp] theorem State.setOut_session (r : List Result) : (s.setOut r).session = s.session := rfl
@[simp] theorem State.setOut_pending (r : List Result) : (s.setOut r).pending = s.pending := rfl
@[simp] theorem State.setOut_out (r : List Result) : (s.setOut r).out = r := rfl
@[simp] theorem State.setOut_trace (r : List Result) : (s.setOut r).trace = s.trace := rfl
@[simp] theorem State.setOut_egress (r : List Result) : (s.setOut r).egress = s.egress := rfl

@[simp] theorem State.record_session : s.record.session = s.session := rfl
@[simp] theorem State.record_pending : s.record.pending = s.pending := rfl
@[simp] theorem State.record_out : s.record.out = s.out := rfl
@[simp] theorem State.record_trace : s.record.trace = s.trace ++ s.out := rfl
@[simp] theorem State.record_egress : s.record.egress = s.egress := rfl

@[simp] theorem State.emit_session (f : List Byte) : (s.emit f).session = s.session := rfl
@[simp] theorem State.emit_pending (f : List Byte) : (s.emit f).pending = s.pending := rfl
@[simp] theorem State.emit_out (f : List Byte) : (s.emit f).out = s.out := rfl
@[simp] theorem State.emit_trace (f : List Byte) : (s.emit f).trace = s.trace := rfl
@[simp] theorem State.emit_egress (f : List Byte) : (s.emit f).egress = s.egress ++ f := rfl

end

end Sys2Proof.Machine
end

