-- ==== Sys2Proof/Laws/Decoder.lean ====
section
/-! SUPPORT. What the shared operations of the decoder can do: one lemma for each, which the proofs cite instead of
unfolding it. -/

namespace Sys2Proof.Machine

section
variable {α β : Type}

@[simp] theorem Answer.andThen_of_next (a : α) (f : α → Answer β) :
    Answer.andThen (Host.Outcome.next a) f = f a := rfl

@[simp] theorem Answer.andThen_of_fault (r : Fault) (f : α → Answer β) :
    Answer.andThen (Host.Outcome.fault r) f = Host.Outcome.fault r := rfl

@[simp] theorem Answer.andThen_of_refused (r : Refusal) (f : α → Answer β) :
    Answer.andThen (Host.Outcome.refused r) f = Host.Outcome.refused r := rfl

/-- A sequence of two answers goes on only where both do. -/
theorem Answer.andThen_eq_next {o : Answer α} {f : α → Answer β} {b : β} :
    o.andThen f = .next b ↔ ∃ a, o = .next a ∧ f a = .next b := by
  cases o <;> simp

end

@[simp] theorem eventResults_none : eventResults none = [] := rfl

@[simp] theorem eventResults_some (e : Event) : eventResults (some e) = [.event e] := rfl

theorem quiet_eq (d : Session) : quiet d = (d, none) := rfl

theorem raiseEvent_eq (e : Event) (d : Session) : raiseEvent e d = (d.setPhase .idle, some e) := rfl

theorem resync_eq (d : Session) : resync d = (d.setPhase .idle, none) := rfl

/-- What a payload byte changes: the byte at `idx`, the accumulator and the index. -/
theorem Session.takePayload_eq (d : Session) (b : Byte) :
    d.takePayload b = { d with buf := d.buf.store d.idx.toNat b, chk := d.chk ^^^ b, idx := d.idx + 1 } := rfl

/-- A byte consumed: the session and the results, nothing else of the machine. -/
theorem afterByte_eq_next {s t : State} {o : Answer DecOut} :
    s.afterByte o = .next t ↔
      ∃ d e, o = .next (d, e) ∧ t = { s with session := d, out := eventResults e } := by
  rw [State.afterByte, Answer.andThen_eq_next]
  constructor
  · rintro ⟨⟨d, e⟩, h, h'⟩; exact ⟨d, e, h, (Host.Outcome.next.inj h').symm⟩
  · rintro ⟨d, e, h, rfl⟩; exact ⟨(d, e), h, rfl⟩

/-- Bytes fed as one operation: the session and the results, nothing else of the machine. -/
theorem consumeBytes_eq_next {s t : State} {bs : List Byte} :
    consumeBytes bs s = .next t ↔
      ∃ d es, decRun s.session bs = .next (d, es) ∧ t = { s with session := d, out := es.map .event } := by
  rw [consumeBytes, Answer.andThen_eq_next]
  constructor
  · rintro ⟨⟨d, es⟩, h, h'⟩; exact ⟨d, es, h, (Host.Outcome.next.inj h').symm⟩
  · rintro ⟨d, es, h, rfl⟩; exact ⟨(d, es), h, rfl⟩

/-- Everything one decoder step can do: its transition rules, with the condition of each. -/
theorem decStep_cases {d : Session} {b : Byte} {r : DecOut} (h : decStep d b = .next r) :
    (d.phase = .idle ∧ b = Config.marker1 ∧ r = ruleIdleHit d) ∨
    (d.phase = .idle ∧ b ≠ Config.marker1 ∧ r = ruleIdleMiss d) ∨
    (d.phase = .seekMarker1 ∧ b = Config.marker2 ∧ r = ruleSm1Hit d) ∨
    (d.phase = .seekMarker1 ∧ b ≠ Config.marker2 ∧ r = ruleSm1Miss d) ∨
    (d.phase = .seekMarker2 ∧ b = Config.markerReq ∧ r = ruleSm2Req d) ∨
    (d.phase = .seekMarker2 ∧ b = Config.markerErr ∧ r = ruleSm2Err d) ∨
    (d.phase = .seekMarker2 ∧ b ≠ Config.markerReq ∧ b ≠ Config.markerErr ∧ r = ruleSm2Miss d) ∨
    (d.phase = .awaitLength ∧ r = ruleLen b d) ∨
    (d.phase = .awaitCommand ∧ d.len = 0 ∧ r = ruleCmdZ b d) ∨
    (d.phase = .awaitCommand ∧ d.len ≠ 0 ∧ r = ruleCmdNz b d) ∨
    (d.phase = .accumulatePayload ∧ d.idx.toNat + 1 < d.len.toNat ∧ r = rulePayMore b d) ∨
    (d.phase = .accumulatePayload ∧ d.idx.toNat + 1 = d.len.toNat ∧ r = rulePayLast b d) ∨
    (d.phase = .verify ∧ b = d.chk ∧
      ∃ p, d.buf.read 0 d.len.toNat = some p ∧ r = raiseEvent (.frameValid d.cmd d.len p d.err) d) ∨
    (d.phase = .verify ∧ b ≠ d.chk ∧ r = ruleVfyBad d) := by
  unfold decStep at h
  split at h
  case h_1 hp => simp only [hp]; split at h <;> simp_all
  case h_2 hp => simp only [hp]; split at h <;> simp_all
  case h_3 hp =>
    simp only [hp]
    split at h
    · simp_all
    · split at h <;> simp_all
  case h_4 hp => simp_all
  case h_5 hp => simp only [hp]; split at h <;> simp_all [Session.lenZero]
  case h_6 hp =>
    simp only [hp]
    split at h
    · simp_all [Session.moreFollow]
    · split at h <;> simp_all [Session.moreFollow, Session.lastOne]
  case h_7 hp =>
    simp only [hp]
    split at h
    · rename_i hc
      rw [Session.xcmp_iff] at hc
      unfold ruleVfyOk Session.payload at h
      split at h <;> simp_all
    · simp_all

/-- A decoder step in phase `Idle`. -/
theorem decStep_idle {d : Session} (h : d.phase = .idle) (b : Byte) :
    decStep d b = .next (if b = Config.marker1 then d.setPhase .seekMarker1 else d.setPhase .idle, none) := by
  rw [decStep, h]
  dsimp only
  split <;> rfl

/-- A decoder step in phase `SeekMarker1`. -/
theorem decStep_seekMarker1 {d : Session} (h : d.phase = .seekMarker1) (b : Byte) :
    decStep d b = .next (if b = Config.marker2 then d.setPhase .seekMarker2 else d.setPhase .idle, none) := by
  rw [decStep, h]
  dsimp only
  split <;> rfl

/-- A decoder step in phase `SeekMarker2`. -/
theorem decStep_seekMarker2 {d : Session} (h : d.phase = .seekMarker2) (b : Byte) :
    decStep d b = .next (if b = Config.markerReq then (d.setErr false).setPhase .awaitLength
      else if b = Config.markerErr then (d.setErr true).setPhase .awaitLength else d.setPhase .idle, none) := by
  rw [decStep, h]
  dsimp only
  split
  · rfl
  · split <;> rfl

/-- A decoder step in phase `AwaitLength`. -/
theorem decStep_awaitLength {d : Session} (h : d.phase = .awaitLength) (b : Byte) :
    decStep d b = .next ({ d with phase := .awaitCommand, len := b, chk := b, idx := 0 }, none) := by
  rw [decStep, h]
  simp [ruleLen, quiet_eq, Session.setPhase, Session.setIdx, Session.xfold, Session.xclr, Session.setChk,
    Session.setLen]

/-- A decoder step in phase `AwaitCommand`. -/
theorem decStep_awaitCommand {d : Session} (h : d.phase = .awaitCommand) (b : Byte) :
    decStep d b = .next ({ d with
      phase := if d.len = 0 then .verify else .accumulatePayload, cmd := b, chk := d.chk ^^^ b }, none) := by
  rw [decStep, h]
  dsimp only
  by_cases hl : d.len = 0
  · rw [if_pos (d.lenZero_iff.2 hl), if_pos hl]; rfl
  · rw [if_neg (fun hc => hl (d.lenZero_iff.1 hc)), if_neg hl]; rfl

/-- A decoder step in phase `AccumulatePayload`, where a payload byte is still to come. -/
theorem decStep_accumulatePayload {d : Session} (h : d.phase = .accumulatePayload) (hi : d.idx.toNat < d.len.toNat)
    (b : Byte) :
    decStep d b = .next ((d.takePayload b).setPhase
      (if d.idx.toNat + 1 = d.len.toNat then .verify else .accumulatePayload), none) := by
  rw [decStep, h]
  dsimp only
  by_cases hl : d.idx.toNat + 1 = d.len.toNat
  · rw [if_neg (by rw [d.moreFollow_iff]; omega), if_pos (d.lastOne_iff.2 hl), if_pos hl]; rfl
  · rw [if_pos (d.moreFollow_iff.2 (by omega)), if_neg hl]; rfl

/-- A decoder step in phase `Verify` on a match, where the payload has its values. -/
theorem decStep_verify_ok {d : Session} (h : d.phase = .verify) {p : List Byte}
    (hp : d.buf.read 0 d.len.toNat = some p) :
    decStep d d.chk = .next (d.setPhase .idle, some (.frameValid d.cmd d.len p d.err)) := by
  rw [decStep, h]
  dsimp only
  rw [if_pos ((d.xcmp_iff _).2 rfl), ruleVfyOk, Session.payload, hp]
  rfl

/-- A decoder step in phase `Verify` on a mismatch. -/
theorem decStep_verify_bad {d : Session} (h : d.phase = .verify) {b : Byte} (hb : b ≠ d.chk) :
    decStep d b = .next (d.setPhase .idle, some (.checksumError d.cmd)) := by
  rw [decStep, h]
  dsimp only
  rw [if_neg (fun hc => hb ((d.xcmp_iff _).1 hc))]
  rfl

@[simp] theorem decRun_nil (d : Session) : decRun d [] = .next (d, []) := rfl

/-- One byte and the rest. -/
theorem decRun_cons (d : Session) (b : Byte) (bs : List Byte) :
    decRun d (b :: bs) = (decStep d b).andThen fun r =>
      (decRun r.1 bs).andThen fun q => .next (q.1, r.2.toList ++ q.2) := rfl

/-- One byte that is consumed without an event. -/
theorem decRun_cons_quiet {d d' : Session} {b : Byte} (h : decStep d b = .next (d', none)) (bs : List Byte) :
    decRun d (b :: bs) = decRun d' bs := by
  rw [decRun_cons, h, Answer.andThen_of_next]
  cases hr : decRun d' bs <;> simp

/-- An operation of format `S` is `BYTE(b)`: where the session selects the form, the form's rule is what the step does. -/
theorem byteForm_eq_consumeByte {sel : Bool} {own : Answer DecOut} {b : Byte} {s : State}
    (h : sel = true → decStep s.session b = own) : byteForm sel own b s = consumeByte b s := by
  unfold byteForm
  split
  · next hs => rw [consumeByte, h hs]
  · rfl

/-- The one session in which no rule applies to a byte. -/
theorem decStep_refused {d : Session} {b : Byte} {r : Refusal} (h : decStep d b = .refused r) :
    r = .noTransition ∧ d.phase = .accumulatePayload ∧ d.len.toNat ≤ d.idx.toNat := by
  cases hp : d.phase with
  | idle => rw [decStep_idle hp] at h; cases h
  | seekMarker1 => rw [decStep_seekMarker1 hp] at h; cases h
  | seekMarker2 => rw [decStep_seekMarker2 hp] at h; cases h
  | awaitLength => rw [decStep_awaitLength hp] at h; cases h
  | awaitCommand => rw [decStep_awaitCommand hp] at h; cases h
  | accumulatePayload =>
    by_cases hl : d.idx.toNat < d.len.toNat
    · rw [decStep_accumulatePayload hp hl] at h; cases h
    · rw [decStep, hp] at h
      simp only [] at h
      rw [if_neg (by rw [Session.moreFollow_iff]; omega),
        if_neg (by rw [Session.lastOne_iff]; omega)] at h
      cases h
      exact ⟨rfl, rfl, by omega⟩
  | verify =>
    by_cases hb : b = d.chk
    · rw [decStep, hp] at h; simp only [] at h; rw [if_pos ((d.xcmp_iff _).2 hb), ruleVfyOk] at h
      split at h <;> cases h
    · rw [decStep_verify_bad hp hb] at h; cases h

/-- The one session in which a byte faults. -/
theorem decStep_fault {d : Session} {b : Byte} {r : Fault} :
    decStep d b = .fault r ↔ (d.phase = .verify ∧ b = d.chk ∧ d.buf.read 0 d.len.toNat = none) := by
  cases hp : d.phase with
  | idle => rw [decStep_idle hp]; simp
  | seekMarker1 => rw [decStep_seekMarker1 hp]; simp
  | seekMarker2 => rw [decStep_seekMarker2 hp]; simp
  | awaitLength => rw [decStep_awaitLength hp]; simp
  | awaitCommand => rw [decStep_awaitCommand hp]; simp
  | accumulatePayload =>
    by_cases hl : d.idx.toNat < d.len.toNat
    · rw [decStep_accumulatePayload hp hl]; simp
    · rw [decStep, hp]
      simp only []
      rw [if_neg (by rw [Session.moreFollow_iff]; omega),
        if_neg (by rw [Session.lastOne_iff]; omega)]
      simp
  | verify =>
    by_cases hb : b = d.chk
    · rw [decStep, hp]; simp only []; rw [if_pos ((d.xcmp_iff _).2 hb), ruleVfyOk]
      rw [Session.payload]
      cases r
      cases h : d.buf.read 0 d.len.toNat <;> simp [hb]
    · rw [decStep_verify_bad hp hb]; simp [hb]

end Sys2Proof.Machine
end

