-- ==== Sys2Proof/Laws/Dispatch.lean ====
section
/-! SUPPORT. What one operation can do, said once over the dispatch. -/

namespace Sys2Proof.Machine

/-- Every operation of format `S` is `BYTE(b)` of its byte, in whatever session (R80, R81). -/
theorem exec_eq_consumeByte {i : Instr} {b : Byte} (hb : i.byte? = some b) (s : State) :
    exec i s = consumeByte b s := by
  cases i <;> simp only [Instr.byte?, Option.some.injEq, reduceCtorEq] at hb <;> subst hb <;>
    refine byteForm_eq_consumeByte fun h => ?_
  case idleHit => rw [decStep, of_decide_eq_true h]; rfl
  case idleMiss b =>
    obtain ⟨h, hb⟩ := of_decide_eq_true h
    rw [decStep, h]; exact if_neg hb
  case sm1Hit => rw [decStep, of_decide_eq_true h]; rfl
  case sm1Miss b =>
    obtain ⟨h, hb⟩ := of_decide_eq_true h
    rw [decStep, h]; exact if_neg hb
  case sm2Req => rw [decStep, of_decide_eq_true h]; rfl
  case sm2Err => rw [decStep, of_decide_eq_true h]; rfl
  case sm2Miss b =>
    obtain ⟨h, hb, hb'⟩ := of_decide_eq_true h
    rw [decStep, h]; exact (if_neg hb).trans (if_neg hb')
  case len b => rw [decStep, of_decide_eq_true h]
  case cmdNz b =>
    obtain ⟨h, hl⟩ := of_decide_eq_true h
    rw [decStep, h]; exact if_neg (by simp [hl])
  case cmdZ b =>
    obtain ⟨h, hl⟩ := of_decide_eq_true h
    rw [decStep, h]; exact if_pos hl
  case payMore b =>
    obtain ⟨h, hl⟩ := of_decide_eq_true h
    rw [decStep, h]; exact if_pos hl
  case payLast b =>
    obtain ⟨h, hl⟩ := of_decide_eq_true h
    have hm : ¬s.session.moreFollow = true := by rw [Session.moreFollow_iff]; have := (Session.lastOne_iff _).1 hl; omega
    rw [decStep, h]; exact (if_neg hm).trans (if_pos hl)
  case vfyOk b =>
    obtain ⟨h, hc⟩ := of_decide_eq_true h
    rw [decStep, h]; exact if_pos hc
  case vfyBad b =>
    obtain ⟨h, hc⟩ := of_decide_eq_true h
    rw [decStep, h]; exact if_neg (by simp [hc])

/-- Everything an operation can do when it goes on. -/
theorem exec_cases {i : Instr} {s t : State} (h : exec i s = .next t) :
    (∃ b, i.byte? = some b ∧ consumeByte b s = .next t) ∨
    (∃ cmd p chk, (i = .frameReq cmd p chk ∧ consumeBytes (frameBytes false cmd p chk) s = .next t) ∨
      (i = .frameErr cmd p chk ∧ consumeBytes (frameBytes true cmd p chk) s = .next t)) ∨
    (i = .xclr ∧ t = (s.setSession s.session.xclr).setOut []) ∨
    (∃ b, i = .xfold b ∧ t = (s.setSession (s.session.xfold b)).setOut []) ∨
    (∃ b, i = .xcmp b ∧ t = s.setOut [.compared (s.session.xcmp b)]) ∨
    (∃ cmd p, (i = .encOk cmd p ∨ i = .encRej cmd p) ∧
      (p.length ≤ Config.maxPayload ∧ t = acceptEncode cmd p s ∨
        Config.maxPayload < p.length ∧ t = rejectEncode s)) ∨
    (i = .reset ∧ t = (s.setSession Session.reset).setOut []) := by
  cases hb : i.byte? with
  | some b => exact .inl ⟨b, rfl, exec_eq_consumeByte hb s ▸ h⟩
  | none =>
    right
    cases i <;> simp only [Instr.byte?, reduceCtorEq] at hb
    case frameReq cmd p chk => exact .inl ⟨cmd, p, chk, .inl ⟨rfl, h⟩⟩
    case frameErr cmd p chk => exact .inl ⟨cmd, p, chk, .inr ⟨rfl, h⟩⟩
    case xclr => exact .inr (.inl ⟨rfl, (Host.Outcome.next.inj h).symm⟩)
    case xfold b => exact .inr (.inr (.inl ⟨b, rfl, (Host.Outcome.next.inj h).symm⟩))
    case xcmp b => exact .inr (.inr (.inr (.inl ⟨b, rfl, (Host.Outcome.next.inj h).symm⟩)))
    case encOk cmd p =>
      refine .inr (.inr (.inr (.inr (.inl ⟨cmd, p, .inl rfl, ?_⟩))))
      by_cases hp : p.length ≤ Config.maxPayload
      · rw [exec, execEncOk, if_pos hp] at h
        exact .inl ⟨hp, (Host.Outcome.next.inj h).symm⟩
      · rw [exec, execEncOk, if_neg hp, applyEncode, if_neg hp] at h
        exact .inr ⟨by omega, (Host.Outcome.next.inj h).symm⟩
    case encRej cmd p =>
      refine .inr (.inr (.inr (.inr (.inl ⟨cmd, p, .inr rfl, ?_⟩))))
      by_cases hp : Config.maxPayload < p.length
      · rw [exec, execEncRej, if_pos hp] at h
        exact .inr ⟨hp, (Host.Outcome.next.inj h).symm⟩
      · rw [exec, execEncRej, if_neg hp, applyEncode, if_pos (by omega)] at h
        exact .inl ⟨by omega, (Host.Outcome.next.inj h).symm⟩
    case reset => exact .inr (.inr (.inr (.inr (.inr ⟨rfl, (Host.Outcome.next.inj h).symm⟩))))

end Sys2Proof.Machine
end

