-- ==== Sys2Proof/Laws/PerInstr.lean ====
section
/-! SUPPORT. Statements made for every operation as syntax, one lemma per constructor. -/

namespace Sys2Proof.Laws.OneByteWord

/-- An operation's word is the single byte `b` exactly where the operation is `BYTE(b)` in one of its forms (R71: the
formats `S`, and none of `W`, `X`, `E`, `C`). -/
def Statement (i : Instr) : Prop := ∀ b : Byte, i.byte? = some b ↔ encode i = [b]

theorem frameReq (cmd : Byte) (p : List Byte) (chk : Byte) : Statement (.frameReq cmd p chk) := by
  intro b; simp [Instr.byte?, encode, frameBytes]

theorem frameErr (cmd : Byte) (p : List Byte) (chk : Byte) : Statement (.frameErr cmd p chk) := by
  intro b; simp [Instr.byte?, encode, frameBytes]

theorem idleHit : Statement .idleHit := by intro b; simp [Instr.byte?, encode]

theorem idleMiss (b : Byte) : Statement (.idleMiss b) := by intro b'; simp [Instr.byte?, encode]

theorem sm1Hit : Statement .sm1Hit := by intro b; simp [Instr.byte?, encode]

theorem sm1Miss (b : Byte) : Statement (.sm1Miss b) := by intro b'; simp [Instr.byte?, encode]

theorem sm2Req : Statement .sm2Req := by intro b; simp [Instr.byte?, encode]

theorem sm2Err : Statement .sm2Err := by intro b; simp [Instr.byte?, encode]

theorem sm2Miss (b : Byte) : Statement (.sm2Miss b) := by intro b'; simp [Instr.byte?, encode]

theorem len (b : Byte) : Statement (.len b) := by intro b'; simp [Instr.byte?, encode]

theorem cmdNz (b : Byte) : Statement (.cmdNz b) := by intro b'; simp [Instr.byte?, encode]

theorem cmdZ (b : Byte) : Statement (.cmdZ b) := by intro b'; simp [Instr.byte?, encode]

theorem payMore (b : Byte) : Statement (.payMore b) := by intro b'; simp [Instr.byte?, encode]

theorem payLast (b : Byte) : Statement (.payLast b) := by intro b'; simp [Instr.byte?, encode]

theorem vfyOk (b : Byte) : Statement (.vfyOk b) := by intro b'; simp [Instr.byte?, encode]

theorem vfyBad (b : Byte) : Statement (.vfyBad b) := by intro b'; simp [Instr.byte?, encode]

theorem xclr : Statement .xclr := by intro b; simp [Instr.byte?, encode]

theorem xfold (b : Byte) : Statement (.xfold b) := by intro b'; simp [Instr.byte?, encode]

theorem xcmp (b : Byte) : Statement (.xcmp b) := by intro b'; simp [Instr.byte?, encode]

theorem encOk (cmd : Byte) (p : List Byte) : Statement (.encOk cmd p) := by intro b; simp [Instr.byte?, encode]

theorem encRej (cmd : Byte) (p : List Byte) : Statement (.encRej cmd p) := by intro b; simp [Instr.byte?, encode]

theorem reset : Statement .reset := by intro b; simp [Instr.byte?, encode]

end Sys2Proof.Laws.OneByteWord
end

