-- ==== Sys2Proof/Laws/Runs.lean ====
section
/-! SUPPORT. What a run of the decoder over a payload, and over a frame up to its checksum byte, leaves: the lemmas the proofs
about whole frames cite. -/

namespace Sys2Proof.Machine

/-- Bytes stored one after another, from an address on. -/
def storeAll : Memory → Nat → List Byte → Memory
  | m, _, [] => m
  | m, a, b :: q => storeAll (m.store a b) (a + 1) q

/-- What the buffer holds after bytes were stored one after another. -/
theorem load_storeAll (q : List Byte) : ∀ (m : Memory) (a k : Nat),
    (storeAll m a q).load k = if a ≤ k ∧ k < a + q.length then q[k - a]? else m.load k := by
  induction q with
  | nil => intro m a k; rw [if_neg (by simp)]; rfl
  | cons b q ih =>
    intro m a k
    rw [storeAll, ih, Memory.load_store]
    simp only [List.length_cons]
    by_cases h1 : k = a
    · subst h1; simp
    · by_cases h2 : a + 1 ≤ k ∧ k < a + 1 + q.length
      · rw [if_pos h2, if_pos (by omega)]
        obtain ⟨j, rfl⟩ : ∃ j, k = a + 1 + j := ⟨k - (a+1), by omega⟩
        rw [show a + 1 + j - a = j + 1 by omega, show a + 1 + j - (a+1) = j by omega]; simp
      · rw [if_neg h2, if_neg h1, if_neg (by omega)]

/-- Bytes stored from address 0 on read back. -/
theorem read_storeAll (m : Memory) (p : List Byte) : (storeAll m 0 p).read 0 p.length = some p :=
  Memory.read_of_loads fun k hk => by rw [load_storeAll, if_pos (by omega)]; simp

/-- All payload bytes of a frame, in phase `AccumulatePayload`. -/
theorem decRun_payload (q : List Byte) : ∀ (d : Session) (rest : List Byte), d.phase = .accumulatePayload → q ≠ [] →
    d.len.toNat = d.idx.toNat + q.length →
    decRun d (q ++ rest) = decRun { d with
      phase := .verify, idx := d.len, chk := d.chk ^^^ xorFold q, buf := storeAll d.buf d.idx.toNat q } rest := by
  induction q with
  | nil => intro _ _ _ h; exact absurd rfl h
  | cons b q ih =>
    intro d rest hp _ hl
    simp only [List.length_cons] at hl
    rw [List.cons_append, decRun_cons_quiet (decStep_accumulatePayload hp (by omega) b)]
    have hlt := d.len.isLt
    have hi : (d.idx + 1).toNat = d.idx.toNat + 1 := by rw [BitVec.toNat_add]; simp; omega
    cases q with
    | nil =>
      simp at hl
      have he : d.idx + 1 = d.len := BitVec.eq_of_toNat_eq (by omega)
      rw [if_pos hl.symm]
      simp only [Session.takePayload_eq, Session.setPhase, storeAll, he, xorFold_cons, List.nil_append, xorFold_nil]
      rw [show b ^^^ (0 : Byte) = b from BitVec.xor_zero]
    | cons b' q =>
      rw [if_neg (by simp at hl; omega), ih _ rest rfl (by simp) (by simp [Session.takePayload_eq, Session.setPhase] at hl ⊢; omega)]
      simp only [Session.takePayload_eq, Session.setPhase, storeAll, hi, xorFold_cons, BitVec.xor_assoc]

/-- The bytes of a frame up to its checksum, from `Idle`. -/
theorem decRun_frame (d : Session) (err : Bool) (cmd : Byte) (p rest : List Byte)
    (h : d.phase = .idle) (hp : p.length ≤ 255) :
    decRun d ([Config.marker1, Config.marker2, Config.marker3 err, lengthByte p, cmd] ++ p ++ rest) =
      decRun { phase := .verify, err := err, len := lengthByte p, cmd := cmd,
               chk := xorFold ([lengthByte p, cmd] ++ p), idx := lengthByte p, buf := storeAll d.buf 0 p } rest := by
  simp only [List.cons_append, List.nil_append]
  rw [decRun_cons_quiet (decStep_idle h _), if_pos rfl, decRun_cons_quiet (decStep_seekMarker1 rfl _), if_pos rfl]
  have h3 : decStep ((d.setPhase .seekMarker1).setPhase .seekMarker2) (Config.marker3 err) =
      .next ((d.setErr err).setPhase .awaitLength, none) := by
    rw [decStep_seekMarker2 rfl]; cases err <;> rfl
  rw [decRun_cons_quiet h3, decRun_cons_quiet (decStep_awaitLength rfl _), decRun_cons_quiet (decStep_awaitCommand rfl _)]
  by_cases hq : p = []
  · subst hq
    simp [lengthByte, storeAll, xorFold_cons, Session.setErr, Session.setPhase]
  · have hl : lengthByte p ≠ 0 := by
      intro hc
      have := congrArg BitVec.toNat hc
      rw [lengthByte_toNat hp] at this
      simp at this; exact hq this
    rw [decRun_payload p _ rest (if_neg hl) hq (by simp [lengthByte_toNat hp])]
    simp [xorFold_cons, Session.setErr, Session.setPhase, BitVec.xor_assoc]

end Sys2Proof.Machine
end

