-- ==== Sys2Proof/Laws/Step.lean ====
section
/-! SUPPORT. What fetching and one step of the machine can do. -/

namespace Sys2Proof.Machine

/-- A run that begins with a step which goes on, of any machine. -/
theorem run_of_step {M : Host.Core} (k : Nat) {s t : M.State} (h : M.step s = .next t) :
    M.run (k + 1) s = M.run k t := by
  simp only [Host.Core.run, h]

/-- A run of no step. -/
theorem core_run_zero (s : State) : Host.Core.run Sys2Proof.core 0 s = .next s := rfl

/-- A run of this machine that begins with a step which goes on. -/
theorem core_run_of_step (k : Nat) {s t : State} (h : step s = .next t) :
    Host.Core.run Sys2Proof.core (k + 1) s = Host.Core.run Sys2Proof.core k t :=
  run_of_step (M := Sys2Proof.core) k h

/-- Nothing to apply. -/
theorem fetch_of_nil {s : State} (h : s.pending = []) : fetch s = (.nothing, s) := by rw [fetch, h]

/-- A request that asks for an operation. -/
theorem fetch_of_run {s : State} {r : Request} {rest more : List Request} {i : Instr} (h : s.pending = r :: rest)
    (hd : decodeRequest s.session.view r = .run i more) : fetch s = (.run i more, s.setPending (more ++ rest)) := by
  simp only [fetch, h, hd]

/-- A request that carries nothing. -/
theorem fetch_of_nothing {s : State} {r : Request} {rest : List Request} (h : s.pending = r :: rest)
    (hd : decodeRequest s.session.view r = .nothing) : fetch s = (.nothing, s.setPending rest) := by
  simp only [fetch, h, hd]

/-- A byte that no row applies to. -/
theorem fetch_of_noRow {s : State} {r : Request} {rest : List Request} (h : s.pending = r :: rest)
    (hd : decodeRequest s.session.view r = .noRow) : fetch s = (.noRow, s) := by
  simp only [fetch, h, hd]

/-- Everything a step can do when it goes on: a pause, or one operation of the first request. -/
theorem step_cases {s t : State} (h : step s = .next t) :
    (∃ q, (s.pending = [] ∧ q = [] ∨ ∃ r, s.pending = r :: q ∧ decodeRequest s.session.view r = .nothing) ∧
      t = (s.setPending q).setOut []) ∨
    (∃ r rest i more u, s.pending = r :: rest ∧ decodeRequest s.session.view r = .run i more ∧
      exec i (s.setPending (more ++ rest)) = .next u ∧ t = u.record) := by
  cases hp : s.pending with
  | nil =>
    rw [step, fetch_of_nil hp] at h
    have := (Host.Outcome.next.inj h).symm
    refine .inl ⟨[], .inl ⟨rfl, rfl⟩, ?_⟩
    rw [this, pause, State.setOut, State.setOut, State.setPending, ← hp]
  | cons r rest =>
    cases hd : decodeRequest s.session.view r with
    | run i more =>
      rw [step, fetch_of_run hp hd] at h
      obtain ⟨u, hu, ht⟩ := Answer.andThen_eq_next.1 h
      exact .inr ⟨r, rest, i, more, u, rfl, hd, hu, (Host.Outcome.next.inj ht).symm⟩
    | nothing =>
      rw [step, fetch_of_nothing hp hd] at h
      exact .inl ⟨rest, .inr ⟨r, rfl, hd⟩, (Host.Outcome.next.inj h).symm⟩
    | noRow =>
      rw [step, fetch_of_noRow hp hd] at h
      cases h

end Sys2Proof.Machine
end

