-- ==== Sys2Proof/Tests/Slice0.lean ====
section
/-! SUPPORT. The model's own tests, and the witnesses of its statements.

Every expected result comes from the spec: the vectors V<n> of 95_test_vectors.md and the rules' own examples. -/

namespace Sys2Proof.Tests

open Sys2Proof.Machine

/-! ## Helpers -/

/-- A session, its registers in the order the vectors write them. -/
def session (phase : Phase) (err : Bool) (len cmd chk idx : Byte) (buf : Memory) : Session :=
  { phase := phase, err := err, len := len, cmd := cmd, chk := chk, idx := idx, buf := buf }

/-- A machine with that session, nothing to apply and nothing handed out. -/
def machine (d : Session) : State := { State.reset with session := d }

/-- The machine after reset with these requests to apply. -/
def given (requests : List Request) : State := { State.reset with pending := requests }

/-- A next state with this session, and these results of the step. -/
def answers (o : Host.Outcome State Fault Refusal) (d : Session) (out : List Result) : Bool :=
  match o with
  | .next t => t.session = d && t.out = out
  | .fault _ => false
  | .refused _ => false

/-- An operation run in a session. -/
def ran (i : Instr) (d d' : Session) (out : List Result) : Bool := answers (exec i (machine d)) d' out

/-- The run of the decoder over these bytes, from the session after reset, gives these events. -/
def events (bytes : List Byte) (expected : List Event) : Bool :=
  match decRun Session.reset bytes with
  | .next r => r.2 = expected
  | .fault _ => false
  | .refused _ => false

/-- The longest payload, 255 equal bytes. -/
def longest : List Byte := List.replicate 255 0xFF

/-- One byte more than the longest payload. -/
def overlong : List Byte := List.replicate 256 0

theorem longest_length : longest.length = 255 := List.length_replicate

theorem overlong_goes (s : State) : ∃ t, exec (.encRej 1 overlong) s = .next t := by
  have h : Config.maxPayload < overlong.length := by decide +kernel
  generalize overlong = p at h
  exact ⟨rejectEncode s, if_pos h⟩

/-- The shortest frame of V2, with command id 100. -/
def emptyFrame : List Byte := [0x24, 0x4D, 0x3C, 0x00, 0x64, 0x64]

/-- The frame of V37. -/
def oneByteFrame : List Byte := [0x24, 0x4D, 0x3C, 0x01, 0xFF, 0xFF, 0x01]

/-- V15.11's session, waiting for the first of two payload bytes. -/
def waiting : Session := session .accumulatePayload false 2 0x6A 0x68 0 []

/-- V15.13's session, with both payload bytes stored. -/
def complete : Session := session .verify false 2 0x6A 0x58 2 [(0, 0x10), (1, 0x20)]

/-! ## WellFormed refuses ill-formed operations, one for each check -/

theorem test_refuses_long_frame : (Instr.frameReq 1 overlong 0).wellFormed = false := by decide +kernel
theorem test_refuses_long_error_frame : (Instr.frameErr 1 overlong 0).wellFormed = false := by decide +kernel
theorem test_refuses_idle_miss_of_marker : (Instr.idleMiss 0x24).wellFormed = false := by decide
theorem test_refuses_sm1_miss_of_marker : (Instr.sm1Miss 0x4D).wellFormed = false := by decide
theorem test_refuses_sm2_miss_of_normal_marker : (Instr.sm2Miss 0x3C).wellFormed = false := by decide
theorem test_refuses_sm2_miss_of_error_marker : (Instr.sm2Miss 0x21).wellFormed = false := by decide
theorem test_refuses_long_encode : (Instr.encOk 1 overlong).wellFormed = false := by decide +kernel
theorem test_refuses_short_rejection : (Instr.encRej 1 longest).wellFormed = false := by decide +kernel
theorem test_accepts_longest_encode : (Instr.encOk 1 longest).wellFormed = true := by decide +kernel

/-! ## Decoding: words written out from the table and from R60, R69 -/

/-- R60, R61: `24 4D 3C`, length 1, command id 7, payload `99`, checksum `9F` (V38a). -/
theorem test_decode_frame_req : decodeRequest Session.reset.view (.frame [0x24, 0x4D, 0x3C, 0x01, 0x07, 0x99, 0x9F])
    = .run (.frameReq 0x07 [0x99] 0x9F) [] := by decide
/-- R60, R61: the error marker `24 4D 21` (V17). -/
theorem test_decode_frame_err : decodeRequest Session.reset.view (.frame [0x24, 0x4D, 0x21, 0x00, 0x6C, 0x6C])
    = .run (.frameErr 0x6C [] 0x6C) [] := by decide
/-- V29: `'>'` is no marker, so the bytes are a feed. -/
theorem test_decode_no_marker : decodeRequest Session.reset.view (.frame [0x24, 0x4D, 0x3E])
    = .run .idleHit [.rx 0x4D, .rx 0x3E] := by decide
/-- R66: a byte short of its length byte, and a byte too many. -/
theorem test_frame_length_is_exact :
    decodeFrame [0x24, 0x4D, 0x3C, 0x02, 0x07, 0x99, 0x9F] = .error .truncated ∧
    decodeFrame [0x24, 0x4D, 0x3C, 0x00, 0x07, 0x07, 0x9F] = .error .trailing := ⟨rfl, rfl⟩
theorem test_table_frame_req : decodeTableWord 24 0x244D3C = some (.frameReq 0 [] 0) := by decide
theorem test_table_frame_err : decodeTableWord 24 0x244D21 = some (.frameErr 0 [] 0) := by decide
theorem test_table_idle_hit : decodeTableWord 8 0b00100100 = some .idleHit := by decide
theorem test_table_idle_miss : decodeTableWord 8 0x00 = some (.idleMiss 0x00) := by decide
theorem test_table_sm1_hit : decodeTableWord 8 0b01001101 = some .sm1Hit := by decide
theorem test_table_sm2_req : decodeTableWord 8 0b00111100 = some .sm2Req := by decide
theorem test_table_sm2_err : decodeTableWord 8 0b00100001 = some .sm2Err := by decide
theorem test_decode_sm1_miss : decodeByte ⟨.seekMarker1, 0, 0, 0⟩ 0x24 = some (.sm1Miss 0x24) := by decide
theorem test_decode_sm2_miss : decodeByte ⟨.seekMarker2, 0, 0, 0⟩ 0x3E = some (.sm2Miss 0x3E) := by decide
theorem test_decode_len : decodeByte ⟨.awaitLength, 0, 0, 0⟩ 0x24 = some (.len 0x24) := by decide
theorem test_decode_cmd_nz : decodeByte ⟨.awaitCommand, 6, 0, 6⟩ 0x6C = some (.cmdNz 0x6C) := by decide
theorem test_decode_cmd_z : decodeByte ⟨.awaitCommand, 0, 0, 0⟩ 0x64 = some (.cmdZ 0x64) := by decide
theorem test_decode_pay_more : decodeByte ⟨.accumulatePayload, 255, 253, 0⟩ 0x24 = some (.payMore 0x24) := by decide
theorem test_decode_pay_last : decodeByte ⟨.accumulatePayload, 255, 254, 0⟩ 0x24 = some (.payLast 0x24) := by decide
theorem test_decode_vfy_ok : decodeByte ⟨.verify, 1, 1, 0x9F⟩ 0x9F = some (.vfyOk 0x9F) := by decide
theorem test_decode_vfy_bad : decodeByte ⟨.verify, 1, 1, 0x9F⟩ 0x9E = some (.vfyBad 0x9E) := by decide
theorem test_decode_enc_ok : decodeRequest Session.reset.view (.enc 1 longest) = .run (.encOk 1 longest) [] := by decide +kernel
theorem test_decode_enc_rej : decodeRequest Session.reset.view (.enc 1 overlong) = .run (.encRej 1 overlong) [] := by
  decide +kernel
theorem test_decode_reset : decodeRequest complete.view .rst = .run .reset [] := by decide
/-- The engine's operations are internal: no request stands for them. -/
theorem test_engine_has_no_request :
    encodeRequest .xclr = none ∧ encodeRequest (.xfold 1) = none ∧ encodeRequest (.xcmp 1) = none := by decide

/-! ## The fourteen transition rules: V15 -/

theorem test_idle_hit : ran .idleHit (session .idle false 0 0 0 0 []) (session .seekMarker1 false 0 0 0 0 []) [] := by decide
theorem test_idle_miss : ran (.idleMiss 0x4D) (session .idle true 3 0x6C 0x6F 3 []) (session .idle true 3 0x6C 0x6F 3 []) []
    := by decide
theorem test_sm1_hit : ran .sm1Hit (session .seekMarker1 false 0 0 0 0 []) (session .seekMarker2 false 0 0 0 0 []) [] := by
  decide
theorem test_sm1_miss : ran (.sm1Miss 0x24) (session .seekMarker1 false 0 0 0 0 []) (session .idle false 0 0 0 0 []) [] := by
  decide
theorem test_sm2_req : ran .sm2Req (session .seekMarker2 true 1 0x6C 0x6F 1 [])
    (session .awaitLength false 1 0x6C 0x6F 1 []) [] := by decide
theorem test_sm2_err : ran .sm2Err (session .seekMarker2 false 0 0 0 0 []) (session .awaitLength true 0 0 0 0 []) [] := by
  decide
theorem test_sm2_miss : ran (.sm2Miss 0x3E) (session .seekMarker2 false 0 0 0 0 []) (session .idle false 0 0 0 0 []) [] := by
  decide
theorem test_len : ran (.len 0xFF) (session .awaitLength true 9 0x77 0x5A 7 [])
    (session .awaitCommand true 0xFF 0x77 0xFF 0 []) [] := by decide
theorem test_cmd_nz : ran (.cmdNz 0x6A) (session .awaitCommand false 2 0x77 2 0 [])
    (session .accumulatePayload false 2 0x6A 0x68 0 []) [] := by decide
theorem test_cmd_z : ran (.cmdZ 0x00) (session .awaitCommand false 0 0x77 0 0 []) (session .verify false 0 0 0 0 []) [] := by
  decide
theorem test_pay_more : ran (.payMore 0x10) waiting (session .accumulatePayload false 2 0x6A 0x78 1 [(0, 0x10)]) [] := by
  decide
theorem test_pay_last_of_one : ran (.payLast 0x24) (session .accumulatePayload false 1 0x07 0x06 0 [])
    (session .verify false 1 0x07 0x22 1 [(0, 0x24)]) [] := by decide
theorem test_pay_last_of_255 : ran (.payLast 0xFE) (session .accumulatePayload false 0xFF 0x42 0x43 0xFE [])
    (session .verify false 0xFF 0x42 0xBD 0xFF [(254, 0xFE)]) [] := by decide
theorem test_vfy_ok : ran (.vfyOk 0x58) complete (complete.setPhase .idle)
    [.event (.frameValid 0x6A 2 [0x10, 0x20] false)] := by decide
theorem test_vfy_ok_empty_error_frame : ran (.vfyOk 0x6C) (session .verify true 0 0x6C 0x6C 0 [])
    (session .idle true 0 0x6C 0x6C 0 []) [.event (.frameValid 0x6C 0 [] true)] := by decide
theorem test_vfy_bad : ran (.vfyBad 0x59) complete (complete.setPhase .idle) [.event (.checksumError 0x6A)] := by decide

/-! ## The engine: V11 to V14a -/

theorem test_xclr : ran .xclr (session .verify true 1 2 0x5A 1 []) (session .verify true 1 2 0 1 []) [] := by decide
theorem test_xfold : ran (.xfold 0x6C) (session .idle false 0 0 0x06 0 []) (session .idle false 0 0 0x6A 0 []) [] := by decide
theorem test_xfold_complement : ran (.xfold 0xFF) (session .idle false 0 0 0xA5 0 []) (session .idle false 0 0 0x5A 0 []) []
    := by decide
theorem test_xcmp_equal : ran (.xcmp 0x9F) (session .idle false 0 0 0x9F 0 []) (session .idle false 0 0 0x9F 0 [])
    [.compared true] := by decide
theorem test_xcmp_different : ran (.xcmp 0x9E) (session .idle false 0 0 0x9F 0 []) (session .idle false 0 0 0x9F 0 [])
    [.compared false] := by decide
/-- V14c. -/
theorem test_xor_fold : xorFold [0x04, 0xC8, 0x01, 0x02, 0x03, 0x04] = 0xC8 := by decide

/-! ## The encoder: V1, V40, V41; RESET: V33 -/

theorem test_enc_ok_scenario : ran (.encOk 108 [0x3E, 0xFE, 0xB0, 0x04, 0x10, 0x0E]) waiting waiting
    [.encoded [0x24, 0x4D, 0x3C, 0x06, 0x6C, 0x3E, 0xFE, 0xB0, 0x04, 0x10, 0x0E, 0x00]] := by decide
theorem test_enc_ok_markers_in_payload : ran (.encOk 1 [0x24, 0x4D, 0x3C]) waiting waiting
    [.encoded [0x24, 0x4D, 0x3C, 0x03, 0x01, 0x24, 0x4D, 0x3C, 0x57]] := by decide
theorem test_enc_rej : ran (.encRej 1 overlong) waiting waiting [.payloadTooLarge] := by decide +kernel
theorem test_reset_in_mid_frame : ran .reset (session .accumulatePayload false 4 0x10 5 2 [(0, 0xAA), (1, 0xBB)])
    (session .idle false 0 0 0 0 []) [] := by decide

/-! ## Whole frames: V17 to V20 -/

theorem test_frame_req_with_markers : ran (.frameReq 1 [0x24, 0x4D, 0x3C] 0x57) Session.reset
    (session .idle false 3 1 0x57 3 [(0, 0x24), (1, 0x4D), (2, 0x3C)])
    [.event (.frameValid 1 3 [0x24, 0x4D, 0x3C] false)] := by decide
theorem test_frame_req_corrupted : ran (.frameReq 0xC8 [0x01, 0x12, 0x03, 0x04] 0xC8) Session.reset
    (session .idle false 4 0xC8 0xD8 4 [(0, 0x01), (1, 0x12), (2, 0x03), (3, 0x04)])
    [.event (.checksumError 0xC8)] := by decide
theorem test_frame_err : ran (.frameErr 0x6C [] 0x6C) Session.reset (session .idle true 0 0x6C 0x6C 0 [])
    [.event (.frameValid 0x6C 0 [] true)] := by decide
theorem test_frame_err_corrupted : ran (.frameErr 0x6C [] 0x6D) Session.reset (session .idle true 0 0x6C 0x6C 0 [])
    [.event (.checksumError 0x6C)] := by decide
/-- V23: a changed length byte is accepted. -/
theorem test_length_byte_corrupted : events [0x24, 0x4D, 0x3C, 0x00, 0x05, 0x05, 0x01] [.frameValid 5 0 [] false] := by decide
/-- V27 and V28: a stray `24`, or `24 4D`, loses the frame after it. -/
theorem test_stray_marker_loses_frame : events (0x24 :: emptyFrame) [] ∧ events (0x24 :: 0x4D :: emptyFrame) [] := by decide

/-! ## The step, the ports, the boundary -/

/-- The first byte of a frame, applied by a step from reset (R84). -/
theorem test_step_byte : answers (step (given [.rx 0x24])) (session .seekMarker1 false 0 0 0 0 []) [] := by decide
/-- The step runs exactly the operation of the placed word. -/
theorem test_step_placed_word : answers (step (State.reset.withFetchWord 8 0x21)) (session .awaitLength true 0 0 0 0 []) [] := by
  decide
/-- R184, of V17: what the ports show after an error frame. -/
theorem test_ports : (machine Session.reset).evKind = 0 ∧
    ({ State.reset with out := [.event (.frameValid 0x6C 0 [] true)] } : State).evErr = some true ∧
    ({ State.reset with out := [.event (.checksumError 0x6C)] } : State).evLen = none ∧
    ({ State.reset with out := [.payloadTooLarge] } : State).encReject = true := by decide
/-- V1, R141: the payload of the command-108 scenario. -/
theorem test_attitude_payload : (Attitude.mk (-450) 1200 3600).payload = [0x3E, 0xFE, 0xB0, 0x04, 0x10, 0x0E] := by decide
/-- V1, R141: and its reading. -/
theorem test_attitude_reading : Attitude.ofPayload [0x3E, 0xFE, 0xB0, 0x04, 0x10, 0x0E] = some ⟨-450, 1200, 3600⟩ := by decide
/-- R139, R141: a payload one byte short, and one byte too long. -/
theorem test_attitude_length : Attitude.ofPayload [0x3E, 0xFE, 0xB0, 0x04, 0x10] = none ∧
    Attitude.ofPayload [0x3E, 0xFE, 0xB0, 0x04, 0x10, 0x0E, 0x00] = none := by decide

/-! ## Witnesses: a concrete state and operands that meet a statement's hypotheses -/

/-- The session in `phase` with nothing else set. -/
def inPhase (p : Phase) : Session := session p false 0 0 0 0 []

theorem witness_IdleHitSeeksSecondMarker : (machine (inPhase .idle)).session.phase = .idle := rfl
theorem witness_IdleMissChangesNothing : (machine (inPhase .idle)).session.phase = .idle ∧ (0x4D : Byte) ≠ 0x24 := by decide
theorem witness_SecondMarkerSeeksThird : (machine (inPhase .seekMarker1)).session.phase = .seekMarker1 := rfl
theorem witness_SecondMarkerMissReturnsToIdle :
    (machine (inPhase .seekMarker1)).session.phase = .seekMarker1 ∧ (0x24 : Byte) ≠ 0x4D ∧ (inPhase .idle).phase = .idle := by
  decide
theorem witness_NormalMarkerClearsErr : (machine (inPhase .seekMarker2)).session.phase = .seekMarker2 := rfl
theorem witness_ErrorMarkerSetsErr : (machine (inPhase .seekMarker2)).session.phase = .seekMarker2 := rfl
theorem witness_ThirdMarkerMissReturnsToIdle :
    (machine (inPhase .seekMarker2)).session.phase = .seekMarker2 ∧ (0x3E : Byte) ≠ 0x3C ∧ (0x3E : Byte) ≠ 0x21 := by decide
theorem witness_LengthByteStartsFrame :
    (machine (inPhase .awaitLength)).session.phase = .awaitLength ∧
    ∃ u v, exec .xclr (machine (inPhase .awaitLength)) = .next u ∧ exec (.xfold 0xFF) u = .next v :=
  ⟨rfl, _, _, rfl, rfl⟩
theorem witness_CommandByteBeforePayload :
    (machine (session .awaitCommand false 1 0 1 0 [])).session.phase = .awaitCommand ∧
    (machine (session .awaitCommand false 1 0 1 0 [])).session.len ≠ 0 := by decide
theorem inv_awaitCommand : (inPhase .awaitCommand).Inv :=
  ⟨rfl, by decide, by decide, by decide, fun h => absurd h (by decide)⟩
theorem witness_CommandByteOfEmptyFrame :
    (machine (inPhase .awaitCommand)).session.phase = .awaitCommand ∧ (machine (inPhase .awaitCommand)).session.len = 0 ∧
    (machine (inPhase .awaitCommand)).Inv := ⟨rfl, rfl, inv_awaitCommand⟩
/-- At a small length and at the largest. -/
theorem witness_PayloadByteIsStored :
    ((machine waiting).session.phase = .accumulatePayload ∧
      (machine waiting).session.idx.toNat + 1 < (machine waiting).session.len.toNat) ∧
    ((machine (session .accumulatePayload false 255 0 0 253 [])).session.phase = .accumulatePayload ∧
      (machine (session .accumulatePayload false 255 0 0 253 [])).session.idx.toNat + 1 <
        (machine (session .accumulatePayload false 255 0 0 253 [])).session.len.toNat) := by decide
theorem witness_LastPayloadByteIsStored :
    ((machine (session .accumulatePayload false 1 0 0 0 [])).session.phase = .accumulatePayload ∧
      (machine (session .accumulatePayload false 1 0 0 0 [])).session.idx.toNat + 1 =
        (machine (session .accumulatePayload false 1 0 0 0 [])).session.len.toNat) ∧
    ((machine (session .accumulatePayload false 255 0 0 254 [])).session.phase = .accumulatePayload ∧
      (machine (session .accumulatePayload false 255 0 0 254 [])).session.idx.toNat + 1 =
        (machine (session .accumulatePayload false 255 0 0 254 [])).session.len.toNat) := by decide
/-- With no payload byte, with two, and with 255. -/
theorem witness_MatchDeliversFrame :
    ((machine (inPhase .verify)).session.phase = .verify ∧
      (machine (inPhase .verify)).session.buf.read 0 (machine (inPhase .verify)).session.len.toNat = some []) ∧
    ((machine complete).session.phase = .verify ∧
      (machine complete).session.buf.read 0 (machine complete).session.len.toNat = some [0x10, 0x20]) ∧
    (storeAll [] 0 longest).read 0 (session .verify false 255 0 0 255 (storeAll [] 0 longest)).len.toNat = some longest :=
  ⟨⟨rfl, rfl⟩, ⟨rfl, rfl⟩, by simpa [longest_length, session] using read_storeAll [] longest⟩
theorem witness_MismatchReportsChecksumError :
    (machine complete).session.phase = .verify ∧ (0x24 : Byte) ≠ (machine complete).session.chk := by decide
theorem witness_XorFoldIsBitwiseParity :
    0 < 8 ∧ 7 < 8 ∧ ([] : List Byte).length ≤ 255 ∧ longest.length ≤ 255 := by decide +kernel
/-- V14b. -/
theorem witness_XorFoldIgnoresOrder : List.Perm ([1, 2, 3] : List Byte) [3, 1, 2] := by decide
theorem witness_XorFoldDetectsOneChange :
    2 < ([1, 2, 3] : List Byte).length ∧ ([1, 2, 3] : List Byte)[2]? ≠ some 4 := by decide
theorem witness_EncodeEmitsFrame : ([] : List Byte).length ≤ 255 ∧ longest.length ≤ 255 := by decide +kernel
theorem witness_OverlongEncodeIsRejected : 255 < overlong.length := by decide +kernel
theorem witness_NormalFrameFromIdle :
    State.reset.session.phase = .idle ∧ ([] : List Byte).length ≤ 255 ∧ longest.length ≤ 255 := by decide +kernel
theorem witness_ErrorFrameFromIdle :
    State.reset.session.phase = .idle ∧ ([] : List Byte).length ≤ 255 ∧ longest.length ≤ 255 := by decide +kernel
theorem witness_ErrorFrameReadsAsPeerError :
    State.reset.session.phase = .idle ∧ ([] : List Byte).length ≤ 255 ∧ longest.length ≤ 255 := by decide +kernel
theorem witness_FrameRequestEqualsItsBytes :
    decodeFrame emptyFrame = .ok (.frameReq 0x64 [] 0x64) ∧ (given [.frame emptyFrame]).pending = .frame emptyFrame :: [] ∧
    ∃ t, step (given [.frame emptyFrame]) = .next t := ⟨rfl, rfl, _, rfl⟩
/-- In `Idle` every condition on the phase holds; the second is the one that stores a byte. -/
theorem witness_ByteWritesOnlyItsPhaseRegisters :
    ((Instr.idleHit).byte? = some 0x24 ∧ (∃ t, exec .idleHit State.reset = .next t) ∧
      State.reset.session.phase = .idle ∧ 1 ≠ State.reset.session.payloadAddr) ∧
    ((Instr.payMore 0x10).byte? = some 0x10 ∧ (∃ t, exec (.payMore 0x10) (machine waiting) = .next t) ∧
      254 ≠ (machine waiting).session.payloadAddr) :=
  ⟨⟨rfl, ⟨_, rfl⟩, rfl, by decide⟩, ⟨rfl, ⟨_, rfl⟩, by decide⟩⟩
theorem witness_OtherOperationsFrame :
    (∃ t, exec (.encOk 1 [2]) (machine waiting) = .next t) ∧ (∃ t, exec (.encRej 1 overlong) (machine waiting) = .next t) ∧
    (∃ t, exec .xclr (machine waiting) = .next t) ∧ (∃ t, exec (.xfold 1) (machine waiting) = .next t) ∧
    (∃ t, exec (.xcmp 1) (machine waiting) = .next t) ∧ ∃ t, exec .reset (machine waiting) = .next t :=
  ⟨⟨_, rfl⟩, overlong_goes (machine waiting), ⟨_, rfl⟩, ⟨_, rfl⟩, ⟨_, rfl⟩, ⟨_, rfl⟩⟩
theorem witness_FrameOperationsFrame :
    (∃ t, exec (.frameReq 1 [2] 3) State.reset = .next t) ∧ (∃ t, exec (.frameErr 1 [2] 3) State.reset = .next t) ∧
    State.reset.session.phase = .idle ∧ ([2] : List Byte).length ≤ 255 ∧ ([2] : List Byte).length ≤ 1 :=
  ⟨⟨_, rfl⟩, ⟨_, rfl⟩, rfl, by decide, by decide⟩
/-- Each clause: another form of the same byte; the session outside R25; the buffer byte without a value. -/
theorem witness_SessionSelectsTheForm :
    ((Instr.idleHit).byte? = some 0x24 ∧ decodeByte (inPhase .seekMarker1).view 0x24 = some (.sm1Miss 0x24)) ∧
    ((machine (session .accumulatePayload false 3 0 0 3 [])).session.phase = .accumulatePayload ∧
      (machine (session .accumulatePayload false 3 0 0 3 [])).session.len.toNat ≤
        (machine (session .accumulatePayload false 3 0 0 3 [])).session.idx.toNat) ∧
    ((machine (session .verify false 1 0 1 1 [])).session.phase = .verify ∧
      (machine (session .verify false 1 0 1 1 [])).session.buf.read 0 1 = none) := by decide
theorem witness_ExactlyOneRowApplies :
    ((⟨.accumulatePayload, 1, 0, 0⟩ : View).phase = .accumulatePayload → (0 : Byte).toNat < (1 : Byte).toNat) ∧
    ((⟨.accumulatePayload, 255, 254, 0⟩ : View).phase = .accumulatePayload → (254 : Byte).toNat < (255 : Byte).toNat) ∧
    ((⟨.verify, 0, 0, 0⟩ : View).phase = .accumulatePayload → (0 : Byte).toNat < (0 : Byte).toNat) := by decide
theorem witness_EventsComeFromVerifyOnly :
    ((Instr.vfyOk 0x58).byte? = some 0x58 ∧ (∃ t, exec (.vfyOk 0x58) (machine complete) = .next t) ∧
      (machine complete).session.phase = .verify) ∧
    ((Instr.idleHit).byte? = some 0x24 ∧ (∃ t, exec .idleHit State.reset = .next t) ∧ State.reset.session.phase ≠ .verify) :=
  ⟨⟨rfl, ⟨_, rfl⟩, rfl⟩, ⟨rfl, ⟨_, rfl⟩, by decide⟩⟩
theorem witness_RequestsDecodeBack :
    ((Instr.payLast 0x0E).wellFormed = true ∧ (Instr.payLast 0x0E).selectedBy ⟨.accumulatePayload, 255, 254, 0⟩ = true ∧
      encodeRequest (.payLast 0x0E) = some (.rx 0x0E)) ∧
    ((Instr.encRej 1 overlong).wellFormed = true ∧ (Instr.encRej 1 overlong).selectedBy Session.reset.view = true ∧
      encodeRequest (.encRej 1 overlong) = some (.enc 1 overlong)) := by decide +kernel
theorem witness_FrameEndIsFoundByLength : ([] : List Byte).length ≤ 255 ∧ longest.length ≤ 255 := by decide +kernel
theorem witness_DecodedFramesEncodeBack : decodeFrame oneByteFrame = .ok (.frameReq 0xFF [0xFF] 0x01) := rfl
theorem witness_WellFormedFramesAreDecoded : wellFormedFrame oneByteFrame = true := by decide
theorem witness_StepRunsDecodedOperation :
    (given [.frame emptyFrame, .rst]).pending = .frame emptyFrame :: [.rst] ∧
    decodeRequest (given [.frame emptyFrame, .rst]).session.view (.frame emptyFrame) = .run (.frameReq 0x64 [] 0x64) [] := by
  decide
theorem witness_PauseChangesNothing : (machine waiting).pending = [] := rfl
theorem witness_ResetWinsOverByte : (given [.rstRx 0x24]).pending = .rstRx 0x24 :: [] := rfl
theorem witness_OtherBytesAreAFeed :
    decodeFrame [0x24, 0x4D] = .error .truncated ∧
    (given [.frame [0x24, 0x4D], .rst]).pending = .frame [0x24, 0x4D] :: [.rst] := ⟨rfl, rfl⟩
theorem witness_ResultsOnlyGrow : ∃ t, step (given [.enc 1 [2]]) = .next t := ⟨_, rfl⟩
theorem witness_EncodeCommutesWithDecoder :
    (Instr.idleHit).byte? = some 0x24 ∧ ∃ u t, exec (.encOk 1 [2]) State.reset = .next u ∧ exec .idleHit u = .next t :=
  ⟨rfl, _, _, rfl, rfl⟩
theorem inv_waiting : waiting.Inv :=
  ⟨rfl, by decide, by decide, by decide, fun _ => ⟨[], rfl, by decide⟩⟩
theorem inv_complete : complete.Inv :=
  ⟨rfl, by decide, by decide, by decide, fun _ => ⟨[0x10, 0x20], rfl, by decide⟩⟩
theorem witness_StepKeepsInvariant :
    ({ machine complete with pending := [.rx 0x58] } : State).Inv ∧
    ∃ t, step { machine complete with pending := [.rx 0x58] } = .next t := ⟨inv_complete, _, rfl⟩
theorem witness_MachineNeverStops : ({ machine waiting with pending := [.rx 0x10] } : State).Inv := inv_waiting
theorem witness_WellFormedFrameGivesOneEvent :
    (given (oneByteFrame.map .rx ++ [.rst])).session.phase = .idle ∧ wellFormedFrame oneByteFrame = true ∧
    (given (oneByteFrame.map .rx ++ [.rst])).feeds oneByteFrame [.rst] := ⟨rfl, by decide, rfl⟩
theorem witness_EncodeThenDecodeRoundTrip :
    (given (.enc 7 [0x99] :: ((encodeBytes 7 [0x99]).map .rx ++ []))).session.phase = .idle ∧
    ([0x99] : List Byte).length ≤ 255 ∧
    (given (.enc 7 [0x99] :: ((encodeBytes 7 [0x99]).map .rx ++ []))).pending =
      .enc 7 [0x99] :: ((encodeBytes 7 [0x99]).map .rx ++ []) := ⟨rfl, by decide, rfl⟩
theorem witness_EncodedFramesAreWellFormed : encodeFrame 255 [0xFF] = some oneByteFrame := by decide
theorem witness_IdleSessionsAreIndistinguishable :
    Session.reset.phase = .idle ∧ (complete.setPhase .idle).phase = .idle := by decide
/-- Noise that keeps the decoder in `Idle`, V5. -/
theorem witness_NoiseThenFrameExactly :
    Session.reset.phase = .idle ∧ wellFormedFrame emptyFrame = true ∧
    ∃ e, decRun Session.reset [0x00, 0xFF, 0x4D, 0x3C, 0x21, 0x4D] = .next (e, []) ∧ e.phase = .idle :=
  ⟨rfl, by decide, _, rfl, rfl⟩
/-- Both kinds of noise, V5 and V28. -/
theorem witness_NoiseWithoutMarkerIsSilent :
    Session.reset.phase = .idle ∧ (0x24 : Byte) ∉ ([0x00, 0xFF, 0x4D, 0x3C] : List Byte) ∧
    ¬ ([0x24, 0x4D, 0x3C] : List Byte) <:+: [0x24, 0x4D, 0x24, 0x4D] ∧
    ¬ ([0x24, 0x4D, 0x21] : List Byte) <:+: [0x24, 0x4D, 0x24, 0x4D] := by decide
theorem witness_IdleWithin260Bytes :
    waiting.Inv ∧ waiting.phase ≠ .idle ∧ 260 ≤ (List.replicate 260 (0 : Byte)).length :=
  ⟨inv_waiting, by decide, Nat.le_of_eq List.length_replicate.symm⟩
theorem witness_PayloadPhaseEndsExactly :
    waiting.Inv ∧ waiting.phase = .accumulatePayload ∧
    ([0x10, 0x20, 0x58] : List Byte).length = waiting.len.toNat - waiting.idx.toNat + 1 := ⟨inv_waiting, rfl, rfl⟩
/-- The command id, and the checksum byte. -/
theorem witness_OneCorruptByteIsReported :
    Session.reset.phase = .idle ∧ wellFormedFrame oneByteFrame = true ∧
    (4 ≤ 4 ∧ 4 < oneByteFrame.length ∧ oneByteFrame[4]? ≠ some 0xFE) ∧
    (4 ≤ 6 ∧ 6 < oneByteFrame.length ∧ oneByteFrame[6]? ≠ some 0x00) := by decide
theorem witness_MarkerIsOutsideChecksum :
    Session.reset.phase = .idle ∧ ([] : List Byte).length ≤ 255 ∧ longest.length ≤ 255 := by decide +kernel
/-- The largest and the smallest value of each width. -/
theorem witness_FieldBytesReadBack :
    (-2 ^ (8 * 1 - 1) ≤ (-128 : Int) ∧ (-128 : Int) < 2 ^ (8 * 1 - 1)) ∧
    (-2 ^ (8 * 2 - 1) ≤ (32767 : Int) ∧ (32767 : Int) < 2 ^ (8 * 2 - 1)) ∧
    (-2 ^ (8 * 4 - 1) ≤ (-2147483648 : Int) ∧ (-2147483648 : Int) < 2 ^ (8 * 4 - 1)) ∧
    (255 : Nat) < 2 ^ (8 * 1) ∧ (65535 : Nat) < 2 ^ (8 * 2) ∧ (4294967295 : Nat) < 2 ^ (8 * 4) := by decide
/-- The least and the greatest value of a field, and payloads one byte short and one byte too long. -/
theorem witness_AttitudeMessageReadsBack :
    (-2 ^ 15 ≤ (Attitude.mk (-32768) 32767 0).roll ∧ (Attitude.mk (-32768) 32767 0).roll < 2 ^ 15 ∧
      -2 ^ 15 ≤ (Attitude.mk (-32768) 32767 0).pitch ∧ (Attitude.mk (-32768) 32767 0).pitch < 2 ^ 15 ∧
      -2 ^ 15 ≤ (Attitude.mk (-32768) 32767 0).yaw ∧ (Attitude.mk (-32768) 32767 0).yaw < 2 ^ 15) ∧
    (List.replicate 5 (0 : Byte)).length ≠ 6 ∧ (List.replicate 7 (0 : Byte)).length ≠ 6 := by decide

end Sys2Proof.Tests
end

section
/-! One step whose first request asks for an operation, and the statement about it. -/

namespace Sys2Proof.Machine

/-- A step whose first request asks for an operation runs it with the request gone, then records what it hands out (R8, R69,
R185). -/
theorem step_of_run {s : State} {r : Request} {rest more : List Request} {i : Instr} (hp : s.pending = r :: rest)
    (hd : decodeRequest s.session.view r = .run i more) :
    step s = Answer.andThen (exec i (s.setPending (more ++ rest))) fun u => .next u.record := by
  rw [step, fetch_of_run hp hd]

/-- A step whose first request asks for an operation goes on exactly when that operation does. -/
theorem step_eq_next_of_run {s t : State} {r : Request} {rest more : List Request} {i : Instr}
    (hp : s.pending = r :: rest) (hd : decodeRequest s.session.view r = .run i more) :
    step s = .next t ↔ ∃ u, exec i (s.setPending (more ++ rest)) = .next u ∧ t = u.record := by
  rw [step_of_run hp hd, Answer.andThen_eq_next]
  simp only [Host.Outcome.next.injEq, eq_comm (a := t)]

/-- Settles O38, by what a step with a decoded first request runs (`step_of_run`). -/
theorem stepRunsDecodedOperation : Obligations.StepRunsDecodedOperation :=
  fun _ _ _ _ _ hp hd _ => step_eq_next_of_run hp hd

end Sys2Proof.Machine
end

section
/-! The phases before the length byte, and which operations a request decodes to. -/

namespace Sys2Proof

/-- The phases before the length byte, in which no register carries anything of the frame but `err` (R34). -/
def Phase.beforeLength : Phase → Bool
  | .idle | .seekMarker1 | .seekMarker2 | .awaitLength => true
  | .awaitCommand | .accumulatePayload | .verify => false

/-- What stands at the front of a byte sequence decodes to one of the two frame operations (R60). -/
theorem frameInstr_of_decodeFramePrefix {f more : List Byte} {i : Instr} (h : decodeFramePrefix f = .ok (i, more)) :
    ∃ err cmd p chk, i = frameInstr err cmd p chk := by
  unfold decodeFramePrefix at h
  split at h
  · split at h
    · cases h
    · split at h
      · cases h
      · cases h; exact ⟨_, _, _, _, rfl⟩
  · cases h

/-- A frame decodes to one of the two frame operations (R60). -/
theorem frameInstr_of_decodeFrame {f : List Byte} {i : Instr} (h : decodeFrame f = .ok i) :
    ∃ err cmd p chk, i = frameInstr err cmd p chk := by
  unfold decodeFrame at h
  split at h
  · cases h
  · next hf => cases h; exact frameInstr_of_decodeFramePrefix hf
  · cases h

/-- An operation of format `S` is requested by its byte. -/
theorem encodeRequest_of_byte {i : Instr} {b : Byte} (h : i.byte? = some b) : encodeRequest i = some (.rx b) := by
  cases i <;> cases h <;> rfl

/-- Every operation a request decodes to has a request: none is an internal operation of the engine. -/
theorem encodeRequest_isSome_of_decodeRequest {v : View} {r : Request} {i : Instr} {more : List Request}
    (h : decodeRequest v r = .run i more) : (encodeRequest i).isSome = true := by
  have byte {b : Byte} (hb : decodeByte v b = some i) : (encodeRequest i).isSome = true := by
    rw [encodeRequest_of_byte (decodeByte_byte hb)]; rfl
  unfold decodeRequest at h
  split at h
  · split at h
    · next hb => cases h; exact byte hb
    · cases h
  · split at h
    · next hf =>
      cases h
      obtain ⟨err, cmd, p, chk, rfl⟩ := frameInstr_of_decodeFrame hf
      cases err <;> rfl
    · cases h
    · split at h
      · next hb => cases h; exact byte hb
      · cases h
  · split at h <;> cases h <;> rfl
  · cases h; rfl
  · cases h; rfl

end Sys2Proof
end

section
/-! The session a byte leaves, phase by phase, and the session invariant over steps. -/

namespace Sys2Proof.Machine

/-- The session a byte leaves: in each phase the registers R36 names there are written, and no other. -/
theorem decStep_session {d : Session} {b : Byte} {r : DecOut} (h : decStep d b = .next r) :
    ((d.phase = .idle ∨ d.phase = .seekMarker1 ∨ d.phase = .verify) ∧
      ∃ p : Phase, p.beforeLength = true ∧ r.1 = d.setPhase p) ∨
    (d.phase = .seekMarker2 ∧ ∃ e, ∃ p : Phase, p.beforeLength = true ∧ r.1 = (d.setErr e).setPhase p) ∨
    (d.phase = .awaitLength ∧ r.1 = { d with phase := .awaitCommand, len := b, chk := b, idx := 0 }) ∨
    (d.phase = .awaitCommand ∧
      r.1 = ((d.setCmd b).xfold b).setPhase (if d.len = 0 then .verify else .accumulatePayload)) ∨
    (d.phase = .accumulatePayload ∧ d.idx.toNat < d.len.toNat ∧ r.1 = (d.takePayload b).setPhase
      (if d.idx.toNat + 1 = d.len.toNat then .verify else .accumulatePayload)) := by
  rcases decStep_cases h with ⟨hp, -, rfl⟩ | ⟨hp, -, rfl⟩ | ⟨hp, -, rfl⟩ | ⟨hp, -, rfl⟩ | ⟨hp, -, rfl⟩ |
    ⟨hp, -, rfl⟩ | ⟨hp, -, -, rfl⟩ | ⟨hp, rfl⟩ | ⟨hp, hl, rfl⟩ | ⟨hp, hl, rfl⟩ | ⟨hp, hl, rfl⟩ | ⟨hp, hl, rfl⟩ |
    ⟨hp, -, _, -, rfl⟩ | ⟨hp, -, rfl⟩
  · exact .inl ⟨.inl hp, _, rfl, rfl⟩
  · exact .inl ⟨.inl hp, _, rfl, rfl⟩
  · exact .inl ⟨.inr (.inl hp), .seekMarker2, rfl, rfl⟩
  · exact .inl ⟨.inr (.inl hp), .idle, rfl, rfl⟩
  · exact .inr (.inl ⟨hp, false, .awaitLength, rfl, rfl⟩)
  · exact .inr (.inl ⟨hp, true, .awaitLength, rfl, rfl⟩)
  · exact .inr (.inl ⟨hp, d.err, .idle, rfl, rfl⟩)
  · rw [decStep_awaitLength hp] at h
    exact .inr (.inr (.inl ⟨hp, congrArg Prod.fst (Host.Outcome.next.inj h).symm⟩))
  · rw [if_pos hl]; exact .inr (.inr (.inr (.inl ⟨hp, rfl⟩)))
  · rw [if_neg hl]; exact .inr (.inr (.inr (.inl ⟨hp, rfl⟩)))
  · rw [if_neg (Nat.ne_of_lt hl)]; exact .inr (.inr (.inr (.inr ⟨hp, by omega, rfl⟩)))
  · rw [if_pos hl]; exact .inr (.inr (.inr (.inr ⟨hp, by omega, rfl⟩)))
  · exact .inl ⟨.inr (.inr hp), _, rfl, rfl⟩
  · exact .inl ⟨.inr (.inr hp), _, rfl, rfl⟩

/-- `idx + 1` does not wrap where a payload byte is still to come (R25). -/
theorem idx_succ_toNat {i l : Byte} (h : i.toNat < l.toNat) : (i + 1).toNat = i.toNat + 1 := by
  bv_omega

/-- Before the length byte the invariant asks for the canonical buffer only (R34). -/
theorem Session.inv_of_beforeLength {d : Session} (hw : d.buf.wf = true) (hp : d.phase.beforeLength = true) :
    d.Inv where
  canonical := hw
  idxBelow h := by simp [h, Phase.beforeLength] at hp
  idxAtLen h := by simp [h, Phase.beforeLength] at hp
  afterLength h := by simp [h, Phase.beforeLength] at hp
  folded h := by rcases h with h | h <;> simp [h, Phase.beforeLength] at hp

/-- The invariant after a length byte (R91). -/
theorem Session.Inv.after_length {d : Session} (hi : d.Inv) (b : Byte) :
    ({ d with phase := .awaitCommand, len := b, chk := b, idx := 0 } : Session).Inv where
  canonical := hi.canonical
  idxBelow := nofun
  idxAtLen := nofun
  afterLength _ := ⟨rfl, by simp [xorFold_cons]⟩
  folded := by rintro (h | h) <;> cases h

/-- The invariant after a command id (R92, R93): no payload byte has come, and for `len = 0` none will. -/
theorem Session.Inv.after_command {d : Session} (hi : d.Inv) (hd : d.phase = .awaitCommand) (b : Byte) :
    (((d.setCmd b).xfold b).setPhase (if d.len = 0 then .verify else .accumulatePayload)).Inv := by
  obtain ⟨hidx, hchk⟩ := hi.afterLength hd
  have folded : ∃ p, d.buf.read 0 d.idx.toNat = some p ∧ d.chk ^^^ b = xorFold ([d.len, b] ++ p) :=
    ⟨[], by simp [hidx], by simp [hchk, xorFold_cons]⟩
  by_cases hl : d.len = 0
  · rw [if_pos hl]
    exact ⟨hi.canonical, nofun, fun _ => hidx.trans hl.symm, nofun, fun _ => folded⟩
  · rw [if_neg hl]
    refine ⟨hi.canonical, fun _ => ?_, nofun, nofun, fun _ => folded⟩
    show d.idx.toNat < d.len.toNat
    bv_omega

/-- The invariant after a payload byte (R94, R95): the byte joins the payload in the buffer and the fold. -/
theorem Session.Inv.after_payload {d : Session} (hi : d.Inv) (hd : d.phase = .accumulatePayload) (b : Byte) :
    ((d.takePayload b).setPhase (if d.idx.toNat + 1 = d.len.toNat then .verify else .accumulatePayload)).Inv := by
  have hlt := hi.idxBelow hd
  have hsucc := idx_succ_toNat hlt
  have canonical : (d.buf.store d.idx.toNat b).wf = true :=
    Memory.store_wf b hi.canonical (by have := d.len.isLt; simp only [Config.bufCap]; omega)
  obtain ⟨p, hp, hchk⟩ := hi.folded (.inl hd)
  have folded : ∃ q, (d.buf.store d.idx.toNat b).read 0 (d.idx + 1).toNat = some q ∧
      d.chk ^^^ b = xorFold ([d.len, d.cmd] ++ q) :=
    ⟨p ++ [b], by rw [hsucc, Memory.read_store_end b hp], by rw [hchk, ← List.append_assoc, xorFold_snoc]⟩
  by_cases hl : d.idx.toNat + 1 = d.len.toNat
  · rw [if_pos hl]
    exact ⟨canonical, nofun, fun _ => BitVec.eq_of_toNat_eq (hsucc.trans hl), nofun, fun _ => folded⟩
  · rw [if_neg hl]
    refine ⟨canonical, fun _ => ?_, nofun, nofun, fun _ => folded⟩
    show (d.idx + 1).toNat < d.len.toNat
    omega

/-- One byte keeps the session invariant. -/
theorem decStep_inv {d : Session} {b : Byte} {r : DecOut} (hi : d.Inv) (h : decStep d b = .next r) : r.1.Inv := by
  rcases decStep_session h with ⟨-, p, hp, hr⟩ | ⟨-, e, p, hp, hr⟩ | ⟨-, hr⟩ | ⟨hd, hr⟩ | ⟨hd, -, hr⟩ <;> rw [hr]
  · exact Session.inv_of_beforeLength hi.canonical hp
  · exact Session.inv_of_beforeLength hi.canonical hp
  · exact hi.after_length b
  · exact hi.after_command hd b
  · exact hi.after_payload hd b

/-- What every byte keeps, a run of bytes keeps. -/
theorem decRun_preserves {P : Session → Prop} (hstep : ∀ d b r, P d → decStep d b = .next r → P r.1) :
    ∀ {bs : List Byte} {d e : Session} {es : List Event}, P d → decRun d bs = .next (e, es) → P e := by
  intro bs
  induction bs with
  | nil => intro d e es hd h; cases h; exact hd
  | cons b bs ih =>
    intro d e es hd h
    obtain ⟨r, hr, h⟩ := Answer.andThen_eq_next.1 (decRun_cons d b bs ▸ h)
    obtain ⟨q, hq, h⟩ := Answer.andThen_eq_next.1 h
    cases h
    exact ih (hstep d b r hd hr) hq

/-- An operation that has a request keeps the session invariant. -/
theorem exec_inv {i : Instr} {s t : State} (hreq : (encodeRequest i).isSome = true) (hs : s.Inv)
    (h : exec i s = .next t) : t.Inv := by
  have bytes : ∀ {bs : List Byte}, consumeBytes bs s = .next t → t.Inv := fun h => by
    obtain ⟨d, es, hd, rfl⟩ := consumeBytes_eq_next.1 h
    exact decRun_preserves (fun _ _ _ => decStep_inv) hs hd
  rcases exec_cases h with ⟨b, -, h⟩ | ⟨cmd, p, chk, ⟨-, h⟩ | ⟨-, h⟩⟩ | ⟨rfl, -⟩ | ⟨b, rfl, -⟩ | ⟨b, -, rfl⟩ |
    ⟨cmd, p, -, ⟨-, rfl⟩ | ⟨-, rfl⟩⟩ | ⟨-, rfl⟩
  · obtain ⟨d, e, hd, rfl⟩ := afterByte_eq_next.1 h
    exact decStep_inv hs hd
  · exact bytes h
  · exact bytes h
  · cases hreq
  · cases hreq
  · exact hs
  · exact hs
  · exact hs
  · exact Session.inv_of_beforeLength rfl rfl

/-- Settles O44, from the invariant's preservation by every operation a request decodes to (`exec_inv`). -/
theorem stepKeepsInvariant : Obligations.StepKeepsInvariant := by
  intro s t hs h
  rcases step_cases h with ⟨q, -, rfl⟩ | ⟨r, rest, i, more, u, -, hd, hu, rfl⟩
  · exact hs
  · exact exec_inv (s := s.setPending (more ++ rest)) (t := u) (encodeRequest_isSome_of_decodeRequest hd) hs hu

/-- Settles O45: the empty buffer is canonical and the phase is `Idle`. -/
theorem resetHasInvariant : Obligations.ResetHasInvariant :=
  Session.inv_of_beforeLength Memory.wf_nil rfl

end Sys2Proof.Machine
end

section
/-! What each operation leaves unchanged, and the state after reset. -/

namespace Sys2Proof.Machine

section
variable (d : Session) (b : Byte)

@[simp] theorem Session.takePayload_phase : (d.takePayload b).phase = d.phase := rfl
@[simp] theorem Session.takePayload_err : (d.takePayload b).err = d.err := rfl
@[simp] theorem Session.takePayload_len : (d.takePayload b).len = d.len := rfl
@[simp] theorem Session.takePayload_cmd : (d.takePayload b).cmd = d.cmd := rfl
@[simp] theorem Session.takePayload_chk : (d.takePayload b).chk = d.chk ^^^ b := rfl
@[simp] theorem Session.takePayload_idx : (d.takePayload b).idx = d.idx + 1 := rfl
@[simp] theorem Session.takePayload_buf : (d.takePayload b).buf = d.buf.store d.payloadAddr b := rfl

end

/-- Settles O27: the byte's operation is `BYTE(b)` (`exec_eq_consumeByte`), and `decStep_session` says what that writes. -/
theorem byteWritesOnlyItsPhaseRegisters : Obligations.ByteWritesOnlyItsPhaseRegisters := by
  intro i b s t hb h
  rw [exec_eq_consumeByte hb] at h
  obtain ⟨d, e, hd, rfl⟩ := afterByte_eq_next.1 h
  rcases decStep_session hd with ⟨-, p, -, rfl⟩ | ⟨hp, e, p, -, rfl⟩ | ⟨hp, rfl⟩ | ⟨hp, rfl⟩ | ⟨hp, -, rfl⟩
  · simp
  · simp [hp]
  · simp [hp]
  · simp [hp]
  · simp +contextual [hp, Memory.load_store_other]

/-- `ENC.OK` applies ENCODE in the form the payload's length selects (R72). -/
theorem exec_encOk (cmd : Byte) (p : List Byte) (s : State) : exec (.encOk cmd p) s = applyEncode cmd p s := by
  show execEncOk cmd p s = _
  unfold execEncOk applyEncode
  split <;> rfl

/-- So does `ENC.REJ`. -/
theorem exec_encRej (cmd : Byte) (p : List Byte) (s : State) : exec (.encRej cmd p) s = applyEncode cmd p s := by
  show execEncRej cmd p s = _
  unfold execEncRej
  split
  · next hp => exact (if_neg (Nat.not_le.2 hp)).symm
  · rfl

/-- ENCODE extends the egress stream and leaves the session, the requests and the results of the run (R21, R121, R124). -/
theorem applyEncode_frame {cmd : Byte} {p : List Byte} {s t : State} (h : applyEncode cmd p s = .next t) :
    t.session = s.session ∧ t.pending = s.pending ∧ t.trace = s.trace ∧ ∃ f, t.egress = s.egress ++ f := by
  unfold applyEncode at h
  split at h
  · cases h; exact ⟨rfl, rfl, rfl, _, rfl⟩
  · cases h; exact ⟨rfl, rfl, rfl, [], (List.append_nil _).symm⟩

/-- Settles O28: ENCODE in either form by `applyEncode_frame`; each other operation by its own effect. -/
theorem otherOperationsFrame : Obligations.OtherOperationsFrame := by
  intro s t b cmd p
  refine ⟨?_, ?_, ?_⟩
  · rintro (h | h)
    · exact applyEncode_frame (exec_encOk cmd p s ▸ h)
    · exact applyEncode_frame (exec_encRej cmd p s ▸ h)
  · rintro (h | h | h) <;> cases h <;> exact ⟨rfl, rfl, rfl, rfl, rfl, fun _ => rfl, rfl, rfl, rfl⟩
  · intro h
    cases h
    exact ⟨rfl, rfl, rfl⟩

/-- Outside phase `AccumulatePayload` a byte leaves the whole buffer (R42). -/
theorem decStep_buf {d : Session} {b : Byte} {r : DecOut} (hp : d.phase ≠ .accumulatePayload)
    (h : decStep d b = .next r) : r.1.buf = d.buf := by
  rcases decStep_session h with ⟨-, p, -, hr⟩ | ⟨-, e, p, -, hr⟩ | ⟨-, hr⟩ | ⟨-, hr⟩ | ⟨hp', -⟩
  · rw [hr]; rfl
  · rw [hr]; rfl
  · rw [hr]
  · rw [hr]; rfl
  · exact absurd hp' hp

/-- A frame's bytes fed from `Idle` store its payload from address 0 on, and nothing else (R94, R95). -/
theorem decRun_frameBytes_buf {d e : Session} {es : List Event} {err : Bool} {cmd chk : Byte} {p : List Byte}
    (hd : d.phase = .idle) (hp : p.length ≤ 255) (h : decRun d (frameBytes err cmd p chk) = .next (e, es)) :
    e.buf = storeAll d.buf 0 p := by
  have h := (decRun_frame d err cmd p [chk] hd hp).symm.trans h
  rw [decRun_cons] at h
  obtain ⟨r, hr, h⟩ := Answer.andThen_eq_next.1 h
  cases h
  exact decStep_buf (by simp) hr

/-- A frame's bytes fed as one operation leave the streams, and from `Idle` the buffer from the payload's length on. -/
theorem consumeBytes_frameBytes_frame {err : Bool} {cmd chk : Byte} {p : List Byte} {s t : State}
    (h : consumeBytes (frameBytes err cmd p chk) s = .next t) :
    t.pending = s.pending ∧ t.trace = s.trace ∧ t.egress = s.egress ∧
    (s.session.phase = .idle → p.length ≤ 255 → ∀ a, p.length ≤ a → t.session.buf.load a = s.session.buf.load a) := by
  obtain ⟨d, es, hd, rfl⟩ := consumeBytes_eq_next.1 h
  refine ⟨rfl, rfl, rfl, fun hs hp a ha => ?_⟩
  show d.buf.load a = s.session.buf.load a
  rw [decRun_frameBytes_buf hs hp hd, load_storeAll, if_neg (by omega)]

/-- Settles O29: both frame operations feed the bytes of a frame (`consumeBytes_frameBytes_frame`). -/
theorem frameOperationsFrame : Obligations.FrameOperationsFrame := by
  rintro i cmd p chk s t (rfl | rfl) h
  · exact consumeBytes_frameBytes_frame (err := false) h
  · exact consumeBytes_frameBytes_frame (err := true) h

/-- Settles O22, by evaluating the reset state; its buffer is the empty list. -/
theorem stateAfterReset : Obligations.StateAfterReset :=
  ⟨rfl, rfl, rfl, rfl, rfl, rfl, Memory.load_nil, Memory.wf_nil, rfl, rfl, rfl⟩

end Sys2Proof.Machine
end

section
/-! Noninterference: what two sessions must share so that no byte sequence tells them apart (R33 to R35). -/

namespace Sys2Proof.Machine

/-- Two sessions that no byte sequence can tell apart, phase by phase: they share the registers that the frame in progress
has written, and its payload bytes so far have values. -/
inductive Session.Alike : Session → Session → Prop
  | idle {d d' : Session} (h : d.phase = .idle) (h' : d'.phase = .idle) : Alike d d'
  | seekMarker1 {d d' : Session} (h : d.phase = .seekMarker1) (h' : d'.phase = .seekMarker1) : Alike d d'
  | seekMarker2 {d d' : Session} (h : d.phase = .seekMarker2) (h' : d'.phase = .seekMarker2) : Alike d d'
  | awaitLength {d d' : Session} (h : d.phase = .awaitLength) (h' : d'.phase = .awaitLength) (he : d.err = d'.err) :
    Alike d d'
  | awaitCommand {d : Session} (c : Byte) (m : Memory) (h : d.phase = .awaitCommand) (hi : d.idx = 0) :
    Alike d { d with cmd := c, buf := m }
  | accumulatePayload {d : Session} {m : Memory} {p : List Byte} (h : d.phase = .accumulatePayload)
    (hi : d.idx.toNat < d.len.toNat) (hr : d.buf.read 0 d.idx.toNat = some p) (hr' : m.read 0 d.idx.toNat = some p) :
    Alike d { d with buf := m }
  | verify {d : Session} {m : Memory} {p : List Byte} (h : d.phase = .verify)
    (hr : d.buf.read 0 d.len.toNat = some p) (hr' : m.read 0 d.len.toNat = some p) : Alike d { d with buf := m }

/-- Sessions that are alike are in the same phase. -/
theorem Session.Alike.phase_eq {d d' : Session} (h : d.Alike d') : d.phase = d'.phase := by
  cases h with
  | idle h h' | seekMarker1 h h' | seekMarker2 h h' | awaitLength h h' _ => exact h.trans h'.symm
  | awaitCommand | accumulatePayload | verify => rfl

/-- After the command id two sessions are alike whose buffers hold the same payload bytes so far, in whichever of the two
phases they are: `Verify` where that is the whole payload. -/
theorem Session.Alike.of_read {d : Session} {m : Memory} {p : List Byte} {c : Prop} [Decidable c]
    (hc : c ↔ d.idx.toNat = d.len.toNat) (hle : d.idx.toNat ≤ d.len.toNat)
    (hr : d.buf.read 0 d.idx.toNat = some p) (hr' : m.read 0 d.idx.toNat = some p) :
    Session.Alike { d with phase := if c then .verify else .accumulatePayload }
      { d with phase := if c then .verify else .accumulatePayload, buf := m } := by
  by_cases h : c
  · rw [if_pos h]
    rw [hc.1 h] at hr hr'
    exact .verify (d := { d with phase := .verify }) rfl hr hr'
  · rw [if_neg h]
    exact .accumulatePayload (d := { d with phase := .accumulatePayload }) rfl
      (Nat.lt_of_le_of_ne hle fun he => h (hc.2 he)) hr hr'

/-- A byte takes two sessions that are alike to two that are alike, with the same event or none, and stops neither. -/
theorem decStep_alike {d d' : Session} (h : d.Alike d') (b : Byte) :
    ∃ e e' ev, decStep d b = .next (e, ev) ∧ decStep d' b = .next (e', ev) ∧ e.Alike e' := by
  cases h with
  | idle h h' =>
    refine ⟨_, _, _, decStep_idle h b, decStep_idle h' b, ?_⟩
    split
    · exact .seekMarker1 rfl rfl
    · exact .idle rfl rfl
  | seekMarker1 h h' =>
    refine ⟨_, _, _, decStep_seekMarker1 h b, decStep_seekMarker1 h' b, ?_⟩
    split
    · exact .seekMarker2 rfl rfl
    · exact .idle rfl rfl
  | seekMarker2 h h' =>
    refine ⟨_, _, _, decStep_seekMarker2 h b, decStep_seekMarker2 h' b, ?_⟩
    split
    · exact .awaitLength rfl rfl rfl
    · split
      · exact .awaitLength rfl rfl rfl
      · exact .idle rfl rfl
  | awaitLength h h' he =>
    refine ⟨_, _, _, decStep_awaitLength h b, decStep_awaitLength h' b, ?_⟩
    rw [← he]
    exact .awaitCommand _ _ rfl rfl
  | awaitCommand c m h hi =>
    refine ⟨_, _, _, decStep_awaitCommand h b, decStep_awaitCommand (d := { d with cmd := c, buf := m }) h b, ?_⟩
    have hc : d.len = 0 ↔ d.idx.toNat = d.len.toNat := by rw [hi]; bv_omega
    exact .of_read (d := { d with cmd := b, chk := d.chk ^^^ b }) (p := []) hc (by simp [hi]) (by simp [hi])
      (by simp [hi])
  | @accumulatePayload m p h hi hr hr' =>
    refine ⟨_, _, _, decStep_accumulatePayload h hi b, decStep_accumulatePayload (d := { d with buf := m }) h hi b, ?_⟩
    have hsucc := idx_succ_toNat hi
    refine .of_read (d := d.takePayload b) (p := p ++ [b]) ?_ ?_ ?_ ?_
    · rw [Session.takePayload_idx, hsucc]; rfl
    · rw [Session.takePayload_idx, hsucc]; exact hi
    · rw [Session.takePayload_idx, hsucc]; exact Memory.read_store_end b hr
    · rw [Session.takePayload_idx, hsucc]; exact Memory.read_store_end b hr'
  | @verify m p h hr hr' =>
    by_cases hb : b = d.chk
    · subst hb
      exact ⟨_, _, _, decStep_verify_ok h hr, decStep_verify_ok (d := { d with buf := m }) h hr', .idle rfl rfl⟩
    · exact ⟨_, _, _, decStep_verify_bad h hb, decStep_verify_bad (d := { d with buf := m }) h hb, .idle rfl rfl⟩

/-- Two sessions that are alike give the same events for every byte sequence, and stay alike. -/
theorem decRun_alike (bs : List Byte) : ∀ {d d' : Session}, d.Alike d' →
    ∃ e e' events, decRun d bs = .next (e, events) ∧ decRun d' bs = .next (e', events) ∧ e.Alike e' := by
  induction bs with
  | nil => intro d d' h; exact ⟨d, d', [], rfl, rfl, h⟩
  | cons b bs ih =>
    intro d d' h
    obtain ⟨e, e', ev, hd, hd', he⟩ := decStep_alike h b
    obtain ⟨f, f', events, hr, hr', hf⟩ := ih he
    exact ⟨f, f', ev.toList ++ events, by rw [decRun_cons, hd, Answer.andThen_of_next, hr]; rfl,
      by rw [decRun_cons, hd', Answer.andThen_of_next, hr']; rfl, hf⟩

/-- Settles O51: two sessions in `Idle` are alike (`Session.Alike.idle`), and a run keeps that (`decRun_alike`). -/
theorem idleSessionsAreIndistinguishable : Obligations.IdleSessionsAreIndistinguishable := by
  intro d d' bs h h'
  obtain ⟨e, e', events, hr, hr', he⟩ := decRun_alike bs (.idle h h')
  exact ⟨e, e', events, hr, hr', he.phase_eq⟩

end Sys2Proof.Machine
end

section
/-! ENCODE and the operations on the session commute (R53). -/

namespace Sys2Proof.Machine

/-- What ENCODE emits and hands out depends on the request alone (R126). -/
theorem applyEncode_stateless (cmd : Byte) (p : List Byte) :
    ∃ f r, ∀ s : State, applyEncode cmd p s = .next ((s.emit f).setOut r) := by
  by_cases hp : p.length ≤ Config.maxPayload
  · exact ⟨_, _, fun _ => if_pos hp⟩
  · refine ⟨[], [.payloadTooLarge], fun s => (if_neg hp).trans ?_⟩
    rw [State.emit, List.append_nil, rejectEncode]

/-- What `RESET` or a byte leaves in the session and hands out depends on the session before it alone (R53). -/
theorem exec_of_session_eq {i : Instr} (hi : i = .reset ∨ ∃ b, i.byte? = some b) {u t : State}
    (h : exec i u = .next t) :
    ∃ d r, t = (u.setSession d).setOut r ∧
      ∀ s : State, s.session = u.session → exec i s = .next ((s.setSession d).setOut r) := by
  rcases hi with rfl | ⟨b, hb⟩
  · cases h
    exact ⟨_, _, rfl, fun _ _ => rfl⟩
  · rw [exec_eq_consumeByte hb] at h
    obtain ⟨d, e, hd, rfl⟩ := afterByte_eq_next.1 h
    refine ⟨d, eventResults e, rfl, fun s hs => ?_⟩
    rw [exec_eq_consumeByte hb]
    exact afterByte_eq_next.2 ⟨d, e, hs ▸ hd, rfl⟩

/-- Settles O43: ENCODE reads no state (`applyEncode_stateless`) and leaves the session, which is all the other operation
reads (`exec_of_session_eq`). -/
theorem encodeCommutesWithDecoder : Obligations.EncodeCommutesWithDecoder := by
  intro i cmd p s u t hi hu ht
  obtain ⟨f, r, henc⟩ := applyEncode_stateless cmd p
  rw [exec_encOk, henc] at hu
  cases hu
  obtain ⟨d, r', rfl, hexec⟩ := exec_of_session_eq hi ht
  exact ⟨_, _, hexec s rfl, (exec_encOk cmd p _).trans (henc _), rfl, rfl, rfl, rfl⟩

end Sys2Proof.Machine
end

section
/-! The byte map and the rows of the opcode table: every view of R25 selects one form of a byte. -/

namespace Sys2Proof

/-- Some byte operation is selected by every view of R25, for every byte: the rows of R69 leave none out. -/
theorem exists_selected {v : View} (h : v.phase = .accumulatePayload → v.idx.toNat < v.len.toNat) (b : Byte) :
    ∃ i : Instr, i.wellFormed = true ∧ i.selectedBy v = true ∧ i.byte? = some b := by
  cases hp : v.phase with
  | idle =>
    by_cases hb : b = Config.marker1
    · exact ⟨.idleHit, rfl, decide_eq_true hp, by rw [hb]; rfl⟩
    · exact ⟨.idleMiss b, decide_eq_true hb, decide_eq_true hp, rfl⟩
  | seekMarker1 =>
    by_cases hb : b = Config.marker2
    · exact ⟨.sm1Hit, rfl, decide_eq_true hp, by rw [hb]; rfl⟩
    · exact ⟨.sm1Miss b, decide_eq_true hb, decide_eq_true hp, rfl⟩
  | seekMarker2 =>
    by_cases hb : b = Config.markerReq
    · exact ⟨.sm2Req, rfl, decide_eq_true hp, by rw [hb]; rfl⟩
    · by_cases hb' : b = Config.markerErr
      · exact ⟨.sm2Err, rfl, decide_eq_true hp, by rw [hb']; rfl⟩
      · exact ⟨.sm2Miss b, decide_eq_true ⟨hb, hb'⟩, decide_eq_true hp, rfl⟩
  | awaitLength => exact ⟨.len b, rfl, decide_eq_true hp, rfl⟩
  | awaitCommand =>
    by_cases hl : v.len = 0
    · exact ⟨.cmdZ b, rfl, decide_eq_true ⟨hp, hl⟩, rfl⟩
    · exact ⟨.cmdNz b, rfl, decide_eq_true ⟨hp, hl⟩, rfl⟩
  | accumulatePayload =>
    rcases Nat.lt_or_eq_of_le (h hp) with hl | hl
    · exact ⟨.payMore b, rfl, decide_eq_true ⟨hp, hl⟩, rfl⟩
    · exact ⟨.payLast b, rfl, decide_eq_true ⟨hp, hl⟩, rfl⟩
  | verify =>
    by_cases hb : b = v.chk
    · exact ⟨.vfyOk b, rfl, decide_eq_true ⟨hp, hb⟩, rfl⟩
    · exact ⟨.vfyBad b, rfl, decide_eq_true ⟨hp, hb⟩, rfl⟩

/-- The mask 0xFF keeps the whole byte. -/
theorem and_fullMask (b : Byte) : b &&& 0xFF#8 = b := BitVec.and_allOnes

/-- The rows that apply to a byte are the row of the operation that the view selects (R71): a marker's own row comes before
the row of its phase for every byte, and the conditions on the registers exclude each other. -/
theorem rowsApplying_of_selected {i : Instr} {v : View} {b : Byte} (hw : i.wellFormed = true)
    (hs : i.selectedBy v = true) (hb : i.byte? = some b) : (rowsApplying v b).map (fun r => r.instr b) = [i] := by
  cases i <;> simp only [Instr.byte?, Option.some.injEq, reduceCtorEq] at hb <;> subst hb <;>
    simp only [Instr.selectedBy, Instr.wellFormed, decide_eq_true_eq, ne_eq, BitVec.ofNat_eq_ofNat] at hs hw
  case payMore =>
    simp [rowsApplying, byteRows, markerRows, frameRows, ByteRow.hits, RowCond.holds, hs, hs.2.ne]
  all_goals simp [rowsApplying, byteRows, markerRows, frameRows, ByteRow.hits, RowCond.holds, and_fullMask, hs, hw]

/-- Settles O31: the view selects an operation (`exists_selected`), which is the decoder's answer and the one row's. -/
theorem exactlyOneRowApplies : Obligations.ExactlyOneRowApplies := by
  intro v b h
  obtain ⟨i, hw, hs, hb⟩ := exists_selected h b
  exact ⟨i, decodeByte_selected hw hs hb, hw, hb, hs, rowsApplying_of_selected hw hs hb⟩

end Sys2Proof
end

section
/-! The frame decoder and the encoder are inverse to each other, and so are the request decoder and its encoder. -/

namespace Sys2Proof

open Sys2Proof.Machine

section
variable (err : Bool) (cmd : Byte) (p : List Byte) (chk : Byte)

/-- Both frame operations are encoded by the bytes of their frame (R60). -/
theorem encode_frameInstr : encode (frameInstr err cmd p chk) = frameBytes err cmd p chk := by
  cases err <;> rfl

/-- A frame operation is well-formed exactly where its payload fits (R62). -/
theorem wellFormed_frameInstr : (frameInstr err cmd p chk).wellFormed = true ↔ p.length ≤ 255 := by
  cases err <;> exact decide_eq_true_iff

/-- The fields of a frame in wire order, and what follows them. -/
theorem frameBytes_append (rest : List Byte) : frameBytes err cmd p chk ++ rest =
    Config.marker1 :: Config.marker2 :: Config.marker3 err :: lengthByte p :: cmd :: (p ++ chk :: rest) := by
  simp [frameBytes, lengthByte]

/-- The fields of a frame in wire order. -/
theorem frameBytes_eq_cons : frameBytes err cmd p chk =
    Config.marker1 :: Config.marker2 :: Config.marker3 err :: lengthByte p :: cmd :: (p ++ [chk]) := rfl

/-- A frame is its payload and `FRAME_OVERHEAD` bytes more (R7, R66). -/
theorem frameBytes_length : (frameBytes err cmd p chk).length = p.length + 6 := by
  simp [frameBytes_eq_cons]

end

/-- The marker bytes of a frame with the error flag `err`, and no others, stand for `err` (R61). -/
theorem markerKind_eq_some_iff {m1 m2 m3 : Byte} {err : Bool} :
    markerKind m1 m2 m3 = some err ↔ m1 = Config.marker1 ∧ m2 = Config.marker2 ∧ m3 = Config.marker3 err := by
  refine ⟨fun h => ?_, fun ⟨h1, h2, h3⟩ => by rw [h1, h2, h3, markerKind_marker3]⟩
  unfold markerKind at h
  split at h
  · next h12 =>
    split at h
    · next h3 => cases h; exact ⟨h12.1, h12.2, h3⟩
    · split at h
      · next h3 => cases h; exact ⟨h12.1, h12.2, h3⟩
      · cases h
  · cases h

/-- What the frame decoder reads from the front of a byte sequence: one frame, whose end its length byte gives (R60, R66). -/
theorem decodeFramePrefix_eq_ok_iff {f more : List Byte} {i : Instr} :
    decodeFramePrefix f = .ok (i, more) ↔
      ∃ err cmd p chk, p.length ≤ 255 ∧ f = frameBytes err cmd p chk ++ more ∧ i = frameInstr err cmd p chk := by
  constructor
  · intro h
    unfold decodeFramePrefix at h
    split at h
    · next m1 m2 m3 l c rest =>
      split at h
      · cases h
      · next err hm =>
        split at h
        · cases h
        · next chk more' hd =>
          cases h
          obtain ⟨rfl, rfl, rfl⟩ := markerKind_eq_some_iff.1 hm
          have hlt : l.toNat < rest.length :=
            Nat.lt_of_not_le fun hle => by simp [List.drop_eq_nil_of_le hle] at hd
          have hlen : (rest.take l.toNat).length = l.toNat := by rw [List.length_take]; omega
          have hl : lengthByte (rest.take l.toNat) = l := by simp [lengthByte, hlen]
          have hfits : (rest.take l.toNat).length ≤ 255 := by have := l.isLt; omega
          refine ⟨err, c, rest.take l.toNat, chk, hfits, ?_, rfl⟩
          rw [frameBytes_append, hl, ← hd, List.take_append_drop]
    · cases h
  · rintro ⟨err, cmd, p, chk, hp, rfl, rfl⟩
    rw [frameBytes_append]
    simp only [decodeFramePrefix, markerKind_marker3, lengthByte_toNat hp, List.drop_left, List.take_left]

/-- A byte sequence is one frame where nothing is left over (R66). -/
theorem decodeFrame_eq_ok_iff_prefix {f : List Byte} {i : Instr} :
    decodeFrame f = .ok i ↔ decodeFramePrefix f = .ok (i, []) := by
  unfold decodeFrame
  split
  · next h => simp [h]
  · next h => simp [h]
  · next h => simp [h]

/-- The byte sequences that are exactly one frame, and the operation of each (R60, R66). -/
theorem decodeFrame_eq_ok_iff {f : List Byte} {i : Instr} :
    decodeFrame f = .ok i ↔
      ∃ err cmd p chk, p.length ≤ 255 ∧ f = frameBytes err cmd p chk ∧ i = frameInstr err cmd p chk := by
  simp only [decodeFrame_eq_ok_iff_prefix, decodeFramePrefix_eq_ok_iff, List.append_nil]

/-- The bytes of a frame decode to the frame's operation. -/
theorem decodeFrame_frameBytes {p : List Byte} (hp : p.length ≤ 255) (err : Bool) (cmd chk : Byte) :
    decodeFrame (frameBytes err cmd p chk) = .ok (frameInstr err cmd p chk) :=
  decodeFrame_eq_ok_iff.2 ⟨err, cmd, p, chk, hp, rfl, rfl⟩

/-- A request of the bytes of one frame asks for the frame's operation (R73). -/
theorem decodeRequest_frame_of_ok {f : List Byte} {i : Instr} (h : decodeFrame f = .ok i) (v : View) :
    decodeRequest v (.frame f) = .run i [] := by
  simp only [decodeRequest, h]

/-- A request of one byte asks for the operation the byte decoder answers (R69). -/
theorem decodeRequest_rx_of_some {v : View} {b : Byte} {i : Instr} (h : decodeByte v b = some i) :
    decodeRequest v (.rx b) = .run i [] := by
  simp only [decodeRequest, h]

/-- Settles O33: a byte operation by `decodeByte_selected`, a frame operation by `decodeFrame_frameBytes`, ENCODE by its
payload's length. -/
theorem requestsDecodeBack : Obligations.RequestsDecodeBack := by
  intro i v r hw hs hr
  cases hb : i.byte? with
  | some b =>
    cases (encodeRequest_of_byte hb).symm.trans hr
    exact decodeRequest_rx_of_some (decodeByte_selected hw hs hb)
  | none =>
    cases i <;> simp only [Instr.byte?, encodeRequest, reduceCtorEq, Option.map_none, Option.some.injEq]
      at hb hr <;> subst hr
    case frameReq cmd p chk =>
      exact decodeRequest_frame_of_ok (decodeFrame_frameBytes (of_decide_eq_true hw) false cmd chk) v
    case frameErr cmd p chk =>
      exact decodeRequest_frame_of_ok (decodeFrame_frameBytes (of_decide_eq_true hw) true cmd chk) v
    case encOk cmd p => exact if_pos (of_decide_eq_true hw)
    case encRej cmd p => exact if_neg (Nat.not_le.2 (of_decide_eq_true hw))
    case reset => rfl

/-- Settles O34, from what the frame decoder reads from the front of a byte sequence (`decodeFramePrefix_eq_ok_iff`). -/
theorem frameEndIsFoundByLength : Obligations.FrameEndIsFoundByLength :=
  fun err cmd p chk _ hp =>
    ⟨decodeFramePrefix_eq_ok_iff.2 ⟨err, cmd, p, chk, hp, rfl, rfl⟩, frameBytes_length err cmd p chk⟩

/-- Settles O35: what the frame decoder accepts is the bytes of a frame (`decodeFrame_eq_ok_iff`). -/
theorem decodedFramesEncodeBack : Obligations.DecodedFramesEncodeBack := by
  intro f i h
  obtain ⟨err, cmd, p, chk, hp, rfl, rfl⟩ := decodeFrame_eq_ok_iff.1 h
  exact ⟨encode_frameInstr err cmd p chk, (wellFormed_frameInstr err cmd p chk).2 hp⟩

/-- Settles O37, by evaluating the decoder on each word. -/
theorem tableWordsDecode : Obligations.TableWordsDecode :=
  ⟨rfl, rfl, rfl, rfl, rfl, rfl, rfl, rfl⟩

end Sys2Proof
end

section
/-! The three functions of R67 on the bytes of a frame, and which byte sequences are well-formed frames. -/

namespace Sys2Proof.Machine

section
variable (err : Bool) (cmd : Byte) (p : List Byte) (chk : Byte)

@[simp] theorem frameCmd_frameBytes : frameCmd (frameBytes err cmd p chk) = cmd := rfl

@[simp] theorem framePayload_frameBytes : framePayload (frameBytes err cmd p chk) = p :=
  List.dropLast_concat

@[simp] theorem frameErr_frameBytes : frameErr (frameBytes err cmd p chk) = err := by
  cases err <;> rfl

end

/-- A well-formed frame's checksum byte is the fold of length, command id and payload (R67, R111). -/
theorem wellFormedFrame_frameBytes_iff {err : Bool} {cmd chk : Byte} {p : List Byte} (hp : p.length ≤ 255) :
    wellFormedFrame (frameBytes err cmd p chk) = true ↔ chk = xorFold ([lengthByte p, cmd] ++ p) := by
  have hmarker : (frameBytes err cmd p chk).getD 2 0 = Config.markerReq ∨
      (frameBytes err cmd p chk).getD 2 0 = Config.markerErr := by
    cases err
    · exact .inl rfl
    · exact .inr rfl
  have hlast : (frameBytes err cmd p chk).getLastD 0 = chk := List.getLastD_concat
  have hdrop : ((frameBytes err cmd p chk).drop 3).dropLast = [lengthByte p, cmd] ++ p :=
    List.dropLast_concat (l₁ := [lengthByte p, cmd] ++ p)
  have hlen : (lengthByte p).toNat = p.length := lengthByte_toNat hp
  simp only [wellFormedFrame, hmarker, hlast, hdrop, frameBytes_length]
  simp [frameBytes_eq_cons, hlen]

/-- A well-formed frame is the bytes of a frame (R60, R67). -/
theorem exists_frameBytes_of_wellFormedFrame {f : List Byte} (h : wellFormedFrame f = true) :
    ∃ err cmd p chk, p.length ≤ 255 ∧ f = frameBytes err cmd p chk := by
  obtain ⟨h6, h1, h2, h3, hl, -⟩ := of_decide_eq_true h
  match f, h6 with
  | m1 :: m2 :: m3 :: l :: c :: b :: rest, _ =>
    obtain ⟨p, chk, hr⟩ := (List.eq_nil_or_concat (b :: rest)).resolve_left (by simp)
    have hlen : l.toNat = p.length := by
      have := congrArg List.length hr
      simp [Config.frameOverhead] at this hl
      omega
    have hl' : lengthByte p = l := by simp [lengthByte, ← hlen]
    obtain ⟨err, rfl⟩ : ∃ err, m3 = Config.marker3 err := h3.elim (fun h => ⟨false, h⟩) (fun h => ⟨true, h⟩)
    have hfits : p.length ≤ 255 := by have := l.isLt; omega
    refine ⟨err, c, p, chk, hfits, ?_⟩
    rw [frameBytes_eq_cons, hl', ← List.concat_eq_append, ← hr]
    exact congrArg₂ (fun x y => x :: y :: _) h1 h2

/-- Settles O36: a well-formed frame is the bytes of a frame whose checksum byte is the fold. -/
theorem wellFormedFramesAreDecoded : Obligations.WellFormedFramesAreDecoded := by
  intro f
  constructor
  · intro h
    obtain ⟨err, cmd, p, chk, hp, rfl⟩ := exists_frameBytes_of_wellFormedFrame h
    obtain rfl := (wellFormedFrame_frameBytes_iff hp).1 h
    exact ⟨err, cmd, p, hp, rfl, decodeFrame_frameBytes hp err cmd _, frameCmd_frameBytes ..,
      framePayload_frameBytes .., frameErr_frameBytes ..⟩
  · rintro ⟨err, cmd, p, hp, rfl, -⟩
    exact (wellFormedFrame_frameBytes_iff hp).2 rfl

end Sys2Proof.Machine
end

section
/-! The frame operations from `Idle`, and a frame request against its bytes. -/

namespace Sys2Proof.Machine

/-- Both frame operations feed the bytes of their frame (R73). -/
theorem exec_frameInstr (err : Bool) (cmd : Byte) (p : List Byte) (chk : Byte) (s : State) :
    exec (frameInstr err cmd p chk) s = consumeBytes (frameBytes err cmd p chk) s := by
  cases err <;> rfl

/-- The bytes of a frame from `Idle`: what the session holds afterwards, and the one event (R99, R103). -/
theorem decRun_frameBytes {d : Session} {p : List Byte} (hd : d.phase = .idle) (hp : p.length ≤ 255) (err : Bool)
    (cmd chk : Byte) :
    decRun d (frameBytes err cmd p chk) = .next
      ({ phase := .idle, err := err, len := lengthByte p, cmd := cmd, chk := xorFold ([lengthByte p, cmd] ++ p),
         idx := lengthByte p, buf := storeAll d.buf 0 p },
       [if chk = xorFold ([lengthByte p, cmd] ++ p) then .frameValid cmd (lengthByte p) p err
        else .checksumError cmd]) := by
  refine (decRun_frame d err cmd p [chk] hd hp).trans ?_
  rw [decRun_cons]
  by_cases hc : chk = xorFold ([lengthByte p, cmd] ++ p)
  · have hread : (storeAll d.buf 0 p).read 0 (lengthByte p).toNat = some p := by
      rw [lengthByte_toNat hp, read_storeAll]
    subst hc
    rw [if_pos rfl, decStep_verify_ok rfl hread]
    rfl
  · rw [if_neg hc, decStep_verify_bad rfl hc]
    rfl

/-- A frame operation from `Idle`, with either marker (R60, R99, R103). -/
theorem exec_frameInstr_from_idle {s : State} {p : List Byte} (hs : s.session.phase = .idle) (hp : p.length ≤ 255)
    (err : Bool) (cmd chk : Byte) :
    ∃ m : Memory,
      exec (frameInstr err cmd p chk) s = .next { s with
        session := { phase := .idle, err := err, len := lengthByte p, cmd := cmd,
                     chk := xorFold ([lengthByte p, cmd] ++ p), idx := lengthByte p, buf := m },
        out := [.event (if chk = xorFold ([lengthByte p, cmd] ++ p) then .frameValid cmd (lengthByte p) p err
                        else .checksumError cmd)] } ∧
      ∀ a, m.load a = if a < p.length then p[a]? else s.session.buf.load a := by
  refine ⟨storeAll s.session.buf 0 p, ?_, fun a => by simp [load_storeAll]⟩
  rw [exec_frameInstr]
  exact consumeBytes_eq_next.2 ⟨_, _, decRun_frameBytes hs hp err cmd chk, rfl⟩

/-- Settles O23: the normal marker's case of `exec_frameInstr_from_idle`. -/
theorem normalFrameFromIdle : Obligations.NormalFrameFromIdle :=
  fun _ cmd _ chk hs hp => exec_frameInstr_from_idle hs hp false cmd chk

/-- Settles O24: the error marker's case of `exec_frameInstr_from_idle`. -/
theorem errorFrameFromIdle : Obligations.ErrorFrameFromIdle :=
  fun _ cmd _ chk hs hp => exec_frameInstr_from_idle hs hp true cmd chk

/-- Where a decoder step goes on, the byte decoder has a row for the byte (R69). -/
theorem exists_decodeByte_of_decStep {d : Session} {b : Byte} {r : DecOut} (h : decStep d b = .next r) :
    ∃ i, i.byte? = some b ∧ decodeByte d.view b = some i := by
  have hidx : d.phase = .accumulatePayload → d.idx.toNat < d.len.toNat := by
    intro hp
    rcases decStep_session h with ⟨hp' | hp' | hp', -⟩ | ⟨hp', -⟩ | ⟨hp', -⟩ | ⟨hp', -⟩ | ⟨-, hlt, -⟩
    case inr.inr.inr.inr => exact hlt
    all_goals rw [hp] at hp'; cases hp'
  obtain ⟨i, hw, hs, hb⟩ := exists_selected (v := d.view) hidx b
  exact ⟨i, hb, decodeByte_selected hw hs hb⟩

/-- The results of a byte's event, as those of a list of events. -/
theorem eventResults_eq_map (e : Option Event) : eventResults e = e.toList.map .event := by
  cases e <;> rfl

/-- A step whose first request is a byte that the decoder consumes. -/
theorem step_of_rx {s : State} {b : Byte} {q : List Request} {d : Session} {e : Option Event}
    (hp : s.pending = .rx b :: q) (h : decStep s.session b = .next (d, e)) :
    step s = .next { s with
      session := d, pending := q, out := eventResults e, trace := s.trace ++ eventResults e } := by
  obtain ⟨i, hb, hi⟩ := exists_decodeByte_of_decStep h
  refine (step_eq_next_of_run hp (decodeRequest_rx_of_some hi)).2
    ⟨{ s with session := d, pending := q, out := eventResults e }, ?_, rfl⟩
  rw [exec_eq_consumeByte hb]
  exact afterByte_eq_next.2 ⟨d, e, h, rfl⟩

/-- The machine with bytes to consume runs as the decoder does over them (R98): one step a byte, the events to the results of
the run, the other requests left. -/
theorem core_run_of_feeds (bs : List Byte) : ∀ {s : State} {q : List Request} {d : Session} {es : List Event},
    s.feeds bs q → decRun s.session bs = .next (d, es) →
    ∃ u, Host.Core.run Sys2Proof.core bs.length s = .next u ∧ u.session = d ∧ u.trace = s.trace ++ es.map .event ∧
      u.egress = s.egress ∧ u.pending = q := by
  induction bs with
  | nil =>
    intro s q d es hf h
    cases h
    exact ⟨s, core_run_zero s, rfl, by simp, rfl, hf⟩
  | cons b bs ih =>
    intro s q d es hf h
    obtain ⟨⟨d', e⟩, hd, h⟩ := Answer.andThen_eq_next.1 (decRun_cons s.session b bs ▸ h)
    obtain ⟨⟨d'', es'⟩, hr, h⟩ := Answer.andThen_eq_next.1 h
    cases h
    obtain ⟨u, hu, hsess, htrace, hegress, hpend⟩ := ih (s := { s with
      session := d', pending := bs.map .rx ++ q, out := eventResults e, trace := s.trace ++ eventResults e }) rfl hr
    refine ⟨u, (core_run_of_step _ (step_of_rx hf hd)).trans hu, hsess, ?_, hegress, hpend⟩
    rw [htrace, eventResults_eq_map, List.map_append, List.append_assoc]

/-- Settles O26: both sides are the decoder's run over the bytes, as one operation (`consumeBytes_eq_next`) and one byte a step
(`core_run_of_feeds`). -/
theorem frameRequestEqualsItsBytes : Obligations.FrameRequestEqualsItsBytes := by
  intro s t f i rest hf hp h
  obtain ⟨u, hu, rfl⟩ := (step_eq_next_of_run hp (decodeRequest_frame_of_ok hf _)).1 h
  obtain ⟨err, cmd, p, chk, -, rfl, rfl⟩ := decodeFrame_eq_ok_iff.1 hf
  rw [exec_frameInstr] at hu
  obtain ⟨d, es, hd, rfl⟩ := consumeBytes_eq_next.1 hu
  exact core_run_of_feeds _ (s := { s with pending := (frameBytes err cmd p chk).map .rx ++ rest }) rfl hd

/-- A step whose first request is a byte that no row applies to is refused. -/
theorem step_of_noRow {s : State} {r : Request} {rest : List Request} (hp : s.pending = r :: rest)
    (hd : decodeRequest s.session.view r = .noRow) : step s = .refused .noTransition := by
  rw [step, fetch_of_noRow hp hd]

/-- Settles O41: the first byte decides, and the bytes after it stay to be applied, in both forms. -/
theorem otherBytesAreAFeed : Obligations.OtherBytesAreAFeed := by
  intro s e b bs rest he hp
  have hfeed : (s.setPending (.rx b :: (bs.map .rx ++ rest))).pending = .rx b :: (bs.map .rx ++ rest) := rfl
  show step s = step (s.setPending (.rx b :: (bs.map .rx ++ rest)))
  cases hb : decodeByte s.session.view b with
  | some i =>
    have hframe : decodeRequest s.session.view (.frame (b :: bs)) = .run i (bs.map .rx) := by
      simp only [decodeRequest, he, hb]
    rw [step_of_run hp hframe, step_of_run hfeed (decodeRequest_rx_of_some hb)]
    rfl
  | none =>
    have hframe : decodeRequest s.session.view (.frame (b :: bs)) = .noRow := by simp only [decodeRequest, he, hb]
    have hbyte : decodeRequest s.session.view (.rx b) = .noRow := by simp only [decodeRequest, hb]
    rw [step_of_noRow hp hframe, step_of_noRow hfeed hbyte]

end Sys2Proof.Machine
end

section
/-! The machine goes on from every state with the session invariant. -/

namespace Sys2Proof.Machine

/-- In every view of R25 each byte has a row (R69), so no request is without one. -/
theorem decodeRequest_ne_noRow {v : View} (hv : v.phase = .accumulatePayload → v.idx.toNat < v.len.toNat)
    (r : Request) : decodeRequest v r ≠ .noRow := by
  have byte (b : Byte) : ∃ i, decodeByte v b = some i := by
    obtain ⟨i, hw, hs, hb⟩ := exists_selected hv b
    exact ⟨i, decodeByte_selected hw hs hb⟩
  unfold decodeRequest
  split
  · next b => obtain ⟨i, hi⟩ := byte b; simp [hi]
  · split
    · nofun
    · nofun
    · next b _ _ => obtain ⟨i, hi⟩ := byte b; simp [hi]
  · split <;> nofun
  · nofun
  · nofun

/-- A session with the invariant consumes every byte (R80, R81): R25 and R34 exclude the two stops. -/
theorem Session.Inv.exists_decStep {d : Session} (hi : d.Inv) (b : Byte) : ∃ r, decStep d b = .next r := by
  cases h : decStep d b with
  | next r => exact ⟨r, rfl⟩
  | fault r =>
    obtain ⟨hp, -, hnone⟩ := decStep_fault.1 h
    obtain ⟨p, hread, -⟩ := hi.folded (.inr hp)
    rw [hi.idxAtLen hp, hnone] at hread
    cases hread
  | refused r =>
    obtain ⟨-, hp, hle⟩ := decStep_refused h
    exact absurd (hi.idxBelow hp) (Nat.not_lt.2 hle)

/-- A session with the invariant consumes every byte sequence. -/
theorem Session.Inv.exists_decRun (bs : List Byte) : ∀ {d : Session}, d.Inv → ∃ e es, decRun d bs = .next (e, es) := by
  induction bs with
  | nil => intro d _; exact ⟨d, [], rfl⟩
  | cons b bs ih =>
    intro d hi
    obtain ⟨r, hr⟩ := hi.exists_decStep b
    obtain ⟨e, es, he⟩ := ih (decStep_inv hi hr)
    exact ⟨e, r.2.toList ++ es, by rw [decRun_cons, hr, Answer.andThen_of_next, he, Answer.andThen_of_next]⟩

/-- A byte sequence keeps the session invariant. -/
theorem decRun_inv {d e : Session} {bs : List Byte} {es : List Event} (hi : d.Inv) (h : decRun d bs = .next (e, es)) :
    e.Inv :=
  decRun_preserves (fun _ _ _ => decStep_inv) hi h

/-- Every operation goes on from a state with the invariant. -/
theorem State.Inv.exists_exec {s : State} (hs : s.Inv) (i : Instr) : ∃ t, exec i s = .next t := by
  have bytes (bs : List Byte) : ∃ t, consumeBytes bs s = .next t := by
    obtain ⟨d, es, h⟩ := hs.exists_decRun bs
    exact ⟨_, consumeBytes_eq_next.2 ⟨d, es, h, rfl⟩⟩
  cases hb : i.byte? with
  | some b =>
    obtain ⟨r, hr⟩ := hs.exists_decStep b
    exact ⟨_, (exec_eq_consumeByte hb s).trans (afterByte_eq_next.2 ⟨r.1, r.2, hr, rfl⟩)⟩
  | none =>
    cases i <;> simp only [Instr.byte?, reduceCtorEq] at hb
    case frameReq cmd p chk => exact bytes _
    case frameErr cmd p chk => exact bytes _
    case encOk cmd p =>
      obtain ⟨f, r, h⟩ := applyEncode_stateless cmd p
      exact ⟨_, (exec_encOk cmd p s).trans (h s)⟩
    case encRej cmd p =>
      obtain ⟨f, r, h⟩ := applyEncode_stateless cmd p
      exact ⟨_, (exec_encRej cmd p s).trans (h s)⟩
    all_goals exact ⟨_, rfl⟩

/-- The machine makes a step from every state with the invariant. -/
theorem State.Inv.exists_step {s : State} (hs : s.Inv) : ∃ t, step s = .next t := by
  cases hp : s.pending with
  | nil => exact ⟨_, by rw [step, fetch_of_nil hp]⟩
  | cons r rest =>
    cases hd : decodeRequest s.session.view r with
    | run i more =>
      obtain ⟨u, hu⟩ := State.Inv.exists_exec (s := s.setPending (more ++ rest)) hs i
      exact ⟨_, (step_eq_next_of_run hp hd).2 ⟨u, hu, rfl⟩⟩
    | nothing => exact ⟨_, by rw [step, fetch_of_nothing hp hd]⟩
    | noRow => exact absurd hd (decodeRequest_ne_noRow hs.idxBelow r)

/-- Settles O46, by induction on the number of steps: each is made (`State.Inv.exists_step`) and keeps the invariant
(`stepKeepsInvariant`). -/
theorem machineNeverStops : Obligations.MachineNeverStops := by
  intro s k
  induction k generalizing s with
  | zero => exact fun _ => trivial
  | succ k ih =>
    intro hs
    obtain ⟨t, ht⟩ := hs.exists_step
    exact ⟨t, ht, ih t (stepKeepsInvariant s t hs ht)⟩

end Sys2Proof.Machine
end

section
/-! A run over two byte sequences one after the other, and the run over a well-formed frame. -/

namespace Sys2Proof.Machine

/-- What follows a sequence of two answers follows the second. -/
theorem Answer.andThen_assoc {α β γ : Type} (o : Answer α) (f : α → Answer β) (g : β → Answer γ) :
    (o.andThen f).andThen g = o.andThen fun a => (f a).andThen g := by
  cases o <;> rfl

/-- Settles O47, by induction on the first byte sequence. -/
theorem chunkingDoesNotMatter : Obligations.ChunkingDoesNotMatter := by
  intro d x y
  induction x generalizing d with
  | nil =>
    rw [List.nil_append, decRun_nil, Answer.andThen_of_next]
    cases decRun d y <;> rfl
  | cons b x ih =>
    simp only [List.cons_append, decRun_cons, ih, Answer.andThen_assoc, Answer.andThen_of_next, List.append_assoc]

/-- A run over `x ++ y` that goes on is a run over `x` and a run over `y`, the events in order (R98). -/
theorem decRun_append_eq_next {d e : Session} {x y : List Byte} {es : List Event} :
    decRun d (x ++ y) = .next (e, es) ↔
      ∃ m es₁ es₂, decRun d x = .next (m, es₁) ∧ decRun m y = .next (e, es₂) ∧ es = es₁ ++ es₂ := by
  simp only [chunkingDoesNotMatter d x y, Answer.andThen_eq_next, Host.Outcome.next.injEq, Prod.mk.injEq, Prod.exists]
  constructor
  · rintro ⟨m, es₁, hx, e', es₂, hy, rfl, rfl⟩
    exact ⟨m, es₁, es₂, hx, hy, rfl⟩
  · rintro ⟨m, es₁, es₂, hx, hy, rfl⟩
    exact ⟨m, es₁, hx, e, es₂, hy, rfl, rfl⟩

/-- A run over a byte and more that goes on is a decoder step and a run over the rest. -/
theorem decRun_cons_eq_next {d e : Session} {b : Byte} {bs : List Byte} {es : List Event} :
    decRun d (b :: bs) = .next (e, es) ↔
      ∃ m ev es', decStep d b = .next (m, ev) ∧ decRun m bs = .next (e, es') ∧ es = ev.toList ++ es' := by
  simp only [decRun_cons, Answer.andThen_eq_next, Host.Outcome.next.injEq, Prod.mk.injEq, Prod.exists]
  constructor
  · rintro ⟨m, ev, hb, e', es', hbs, rfl, rfl⟩
    exact ⟨m, ev, es', hb, hbs, rfl⟩
  · rintro ⟨m, ev, es', hb, hbs, rfl⟩
    exact ⟨m, ev, hb, e, es', hbs, rfl, rfl⟩

/-- A run over `x ++ y` without an event has none over `x` and none over `y`. -/
theorem decRun_append_quiet {d e : Session} {x y : List Byte} (h : decRun d (x ++ y) = .next (e, [])) :
    ∃ m, decRun d x = .next (m, []) ∧ decRun m y = .next (e, []) := by
  obtain ⟨m, es₁, es₂, hx, hy, hes⟩ := decRun_append_eq_next.1 h
  obtain ⟨rfl, rfl⟩ := List.append_eq_nil_iff.1 hes.symm
  exact ⟨m, hx, hy⟩

/-- A run over one byte is a decoder step. -/
theorem decRun_singleton_eq_next {d e : Session} {b : Byte} {es : List Event} :
    decRun d [b] = .next (e, es) ↔ ∃ ev, decStep d b = .next (e, ev) ∧ es = ev.toList := by
  simp only [decRun_cons_eq_next, decRun_nil, Host.Outcome.next.injEq, Prod.mk.injEq]
  constructor
  · rintro ⟨m, ev, _, h, ⟨rfl, rfl⟩, rfl⟩
    exact ⟨ev, h, List.append_nil _⟩
  · rintro ⟨ev, h, rfl⟩
    exact ⟨e, ev, [], h, ⟨rfl, rfl⟩, (List.append_nil _).symm⟩

/-- The event of R99 of the bytes of a frame. -/
@[simp] theorem frameEvent_frameBytes (err : Bool) (cmd : Byte) (p : List Byte) (chk : Byte) :
    frameEvent (frameBytes err cmd p chk) = .frameValid cmd (lengthByte p) p err := by
  rw [frameEvent, frameCmd_frameBytes, framePayload_frameBytes, frameErr_frameBytes]; rfl

/-- A well-formed frame from `Idle` gives its event and ends in `Idle` (R99). -/
theorem decRun_wellFormedFrame {d : Session} {f : List Byte} (hd : d.phase = .idle) (hf : wellFormedFrame f = true) :
    ∃ e, decRun d f = .next (e, [frameEvent f]) ∧ e.phase = .idle := by
  obtain ⟨err, cmd, p, chk, hp, rfl⟩ := exists_frameBytes_of_wellFormedFrame hf
  have hrun := decRun_frameBytes hd hp err cmd chk
  rw [if_pos ((wellFormedFrame_frameBytes_iff hp).1 hf), ← frameEvent_frameBytes err cmd p chk] at hrun
  exact ⟨_, hrun, rfl⟩

/-- A well-formed frame from `Idle` gives no event before its last byte (R99). -/
theorem decRun_dropLast_wellFormedFrame {d : Session} {f : List Byte} (hd : d.phase = .idle)
    (hf : wellFormedFrame f = true) : ∃ e, decRun d f.dropLast = .next (e, []) := by
  obtain ⟨err, cmd, p, chk, hp, rfl⟩ := exists_frameBytes_of_wellFormedFrame hf
  have h := decRun_frame d err cmd p [] hd hp
  rw [List.append_nil, decRun_nil] at h
  exact ⟨_, (congrArg (decRun d) List.dropLast_concat).trans h⟩

/-- Settles O48: the machine runs as the decoder does (`core_run_of_feeds`), over the frame without its last byte and over the
whole frame. -/
theorem wellFormedFrameGivesOneEvent : Obligations.WellFormedFrameGivesOneEvent := by
  intro s f rest hs hf hfeeds
  obtain ⟨d, hd⟩ := decRun_dropLast_wellFormedFrame hs hf
  obtain ⟨e, he, hidle⟩ := decRun_wellFormedFrame hs hf
  have hne : f ≠ [] := by rintro rfl; cases hf
  have hfeeds' : s.feeds f.dropLast (.rx (f.getLast hne) :: rest) := by
    rw [State.feeds, List.append_cons, ← List.map_singleton, ← List.map_append, List.dropLast_append_getLast]
    exact hfeeds
  obtain ⟨u, hu, -, htrace, -, -⟩ := core_run_of_feeds _ hfeeds' hd
  obtain ⟨t, ht, hsess, htrace', hegress, hpend⟩ := core_run_of_feeds f hfeeds he
  rw [List.length_dropLast] at hu
  exact ⟨⟨u, hu, by simpa using htrace⟩, t, ht, htrace', hsess ▸ hidle, hpend, hegress⟩

end Sys2Proof.Machine
end

section
/-! Noise from `Idle` (R100): without the first marker byte, and without a marker. -/

namespace Sys2Proof.Machine

/-- Writing the phase a session is in changes nothing. -/
theorem Session.setPhase_of_phase_eq {d : Session} {p : Phase} (h : d.phase = p) : d.setPhase p = d := by
  rw [← h]; rfl

/-- A byte other than the first marker byte leaves a session in `Idle` as it is (R85). -/
theorem decStep_idle_miss {d : Session} (hd : d.phase = .idle) {b : Byte} (hb : b ≠ Config.marker1) :
    decStep d b = .next (d, none) := by
  rw [decStep_idle hd, if_neg hb, Session.setPhase_of_phase_eq hd]

/-- Bytes other than the first marker byte leave a session in `Idle` as it is (R85, R100). -/
theorem decRun_idle_of_not_mem {d : Session} (hd : d.phase = .idle) {n : List Byte} (hn : Config.marker1 ∉ n) :
    decRun d n = .next (d, []) := by
  induction n with
  | nil => rfl
  | cons b n ih =>
    obtain ⟨hb, hn⟩ := List.ne_and_not_mem_of_not_mem_cons hn
    rw [decRun_cons_quiet (decStep_idle_miss hd (Ne.symm hb)), ih hn]

/-- A byte sequence in which neither marker of R61 stands. -/
def MarkerFree (n : List Byte) : Prop :=
  ∀ err : Bool, ¬ [Config.marker1, Config.marker2, Config.marker3 err] <:+: n

/-- The end of a byte sequence without a marker has none. -/
theorem MarkerFree.of_cons {b : Byte} {n : List Byte} (h : MarkerFree (b :: n)) : MarkerFree n :=
  fun err hin => h err (List.infix_cons hin)

/-- A session that is looking for a marker, and bytes to come that complete none: the marker bytes seen so far, and the bytes to
come after them, are a byte sequence without a marker. -/
inductive Session.SeeksInVain : Session → List Byte → Prop
  | idle {d : Session} {n : List Byte} (h : d.phase = .idle) (hn : MarkerFree n) : SeeksInVain d n
  | seekMarker1 {d : Session} {n : List Byte} (h : d.phase = .seekMarker1) (hn : MarkerFree (Config.marker1 :: n)) :
    SeeksInVain d n
  | seekMarker2 {d : Session} {n : List Byte} (h : d.phase = .seekMarker2)
    (hn : MarkerFree (Config.marker1 :: Config.marker2 :: n)) : SeeksInVain d n

/-- A session looking for a marker is in one of the three marker-seeking phases. -/
theorem Session.SeeksInVain.phase {d : Session} {n : List Byte} (h : d.SeeksInVain n) :
    d.phase = .idle ∨ d.phase = .seekMarker1 ∨ d.phase = .seekMarker2 := by
  cases h with
  | idle h _ => exact .inl h
  | seekMarker1 h _ => exact .inr (.inl h)
  | seekMarker2 h _ => exact .inr (.inr h)

/-- Where the bytes to come complete no marker, a byte gives no event and the session goes on looking for one. -/
theorem Session.SeeksInVain.decStep_quiet {d : Session} {b : Byte} {n : List Byte} (h : d.SeeksInVain (b :: n)) :
    ∃ e, decStep d b = .next (e, none) ∧ e.SeeksInVain n := by
  cases h with
  | idle h hn =>
    refine ⟨_, decStep_idle h b, ?_⟩
    split
    · next hb => exact .seekMarker1 rfl (hb ▸ hn)
    · exact .idle rfl hn.of_cons
  | seekMarker1 h hn =>
    refine ⟨_, decStep_seekMarker1 h b, ?_⟩
    split
    · next hb => exact .seekMarker2 rfl (hb ▸ hn)
    · exact .idle rfl hn.of_cons.of_cons
  | seekMarker2 h hn =>
    have third (err : Bool) : b ≠ Config.marker3 err := fun hb =>
      hn err (hb ▸ (List.prefix_append [Config.marker1, Config.marker2, Config.marker3 err] n).isInfix)
    refine ⟨_, decStep_seekMarker2 h b, ?_⟩
    rw [if_neg (show b ≠ Config.markerReq from third false), if_neg (show b ≠ Config.markerErr from third true)]
    exact .idle rfl hn.of_cons.of_cons.of_cons

/-- Bytes that complete no marker give no event and leave the session looking for one. -/
theorem Session.SeeksInVain.decRun_quiet : ∀ {n : List Byte} {d : Session}, d.SeeksInVain n →
    ∃ e, decRun d n = .next (e, []) ∧ e.SeeksInVain [] := by
  intro n
  induction n with
  | nil => intro d h; exact ⟨d, rfl, h⟩
  | cons b n ih =>
    intro d h
    obtain ⟨m, hm, hseek⟩ := h.decStep_quiet
    rw [decRun_cons_quiet hm]
    exact ih hseek

/-- Settles O53: the first part by `decRun_idle_of_not_mem`; in the second, a session in `Idle` looks in vain for a marker. -/
theorem noiseWithoutMarkerIsSilent : Obligations.NoiseWithoutMarkerIsSilent := by
  intro d n hd
  refine ⟨decRun_idle_of_not_mem hd, fun hreq herr => ?_⟩
  have hfree : MarkerFree n := fun
    | false => hreq
    | true => herr
  obtain ⟨e, he, hseek⟩ := (Session.SeeksInVain.idle hd hfree).decRun_quiet
  exact ⟨e, he, hseek.phase⟩

end Sys2Proof.Machine
end

section
/-! How many bytes of the frame in progress a session has consumed: what bounds the length of a frame (R101), and finds its
beginning (R100). -/

namespace Sys2Proof.Machine

/-- The bytes of the frame in progress that the session has consumed: marker, length byte, command id, and `idx` payload
bytes. -/
def Session.consumed (d : Session) : Nat :=
  match d.phase with
  | .idle => 0
  | .seekMarker1 => 1
  | .seekMarker2 => 2
  | .awaitLength => 3
  | .awaitCommand => 4 + d.idx.toNat
  | .accumulatePayload => 5 + d.idx.toNat
  | .verify => 5 + d.idx.toNat

theorem Session.consumed_of_idle {d : Session} (h : d.phase = .idle) : d.consumed = 0 := by
  rw [Session.consumed, h]

theorem Session.consumed_of_verify {d : Session} (h : d.phase = .verify) : d.consumed = 5 + d.idx.toNat := by
  rw [Session.consumed, h]

/-- Only in `Idle` is no frame in progress. -/
theorem Session.consumed_pos {d : Session} (h : d.phase ≠ .idle) : 0 < d.consumed := by
  unfold Session.consumed
  split
  · next hd => exact absurd hd h
  all_goals omega

/-- All but the checksum byte of the longest frame (R7 `MAX_FRAME`). -/
theorem Session.consumed_le (d : Session) : d.consumed ≤ 260 := by
  have := d.idx.isLt
  unfold Session.consumed
  split <;> omega

/-- A byte ends in `Idle`, or the frame in progress is one byte longer. -/
theorem decStep_idle_or_consumed {d : Session} {b : Byte} {r : DecOut} (h : decStep d b = .next r) :
    r.1.phase = .idle ∨ r.1.consumed = d.consumed + 1 := by
  rcases decStep_cases h with ⟨hp, -, rfl⟩ | ⟨-, -, rfl⟩ | ⟨hp, -, rfl⟩ | ⟨-, -, rfl⟩ | ⟨hp, -, rfl⟩ |
    ⟨hp, -, rfl⟩ | ⟨-, -, -, rfl⟩ | ⟨hp, rfl⟩ | ⟨hp, -, rfl⟩ | ⟨hp, -, rfl⟩ | ⟨hp, hl, rfl⟩ | ⟨hp, hl, rfl⟩ |
    ⟨-, -, _, -, rfl⟩ | ⟨-, -, rfl⟩
  · exact .inr (by simp [Session.consumed, hp, ruleIdleHit, quiet_eq])
  · exact .inl rfl
  · exact .inr (by simp [Session.consumed, hp, ruleSm1Hit, quiet_eq])
  · exact .inl rfl
  · exact .inr (by simp [Session.consumed, hp, ruleSm2Req, quiet_eq])
  · exact .inr (by simp [Session.consumed, hp, ruleSm2Err, quiet_eq])
  · exact .inl rfl
  · exact .inr (by simp [Session.consumed, hp, ruleLen, quiet_eq])
  · exact .inr (by simp [Session.consumed, hp, ruleCmdZ, quiet_eq]; omega)
  · exact .inr (by simp [Session.consumed, hp, ruleCmdNz, quiet_eq]; omega)
  · have hsucc := idx_succ_toNat (i := d.idx) (l := d.len) (by omega)
    exact .inr (by simp [Session.consumed, hp, rulePayMore, quiet_eq]; omega)
  · have hsucc := idx_succ_toNat (i := d.idx) (l := d.len) (by omega)
    exact .inr (by simp [Session.consumed, hp, rulePayLast, quiet_eq]; omega)
  · exact .inl rfl
  · exact .inl rfl

/-- A run passes through `Idle` after a first part of its bytes, or the frame in progress is longer by all of them. -/
theorem decRun_idle_or_consumed : ∀ {bs : List Byte} {d g : Session} {es : List Event}, decRun d bs = .next (g, es) →
    (∃ x y e es₁ es₂, x ≠ [] ∧ bs = x ++ y ∧ decRun d x = .next (e, es₁) ∧ e.phase = .idle ∧
      decRun e y = .next (g, es₂)) ∨ g.consumed = d.consumed + bs.length := by
  intro bs
  induction bs with
  | nil => intro d g es h; cases h; exact .inr rfl
  | cons b bs ih =>
    intro d g es h
    obtain ⟨m, ev, es', hb, hbs, -⟩ := decRun_cons_eq_next.1 h
    rcases decStep_idle_or_consumed hb with hm | hm
    · exact .inl ⟨[b], bs, m, _, es', by simp, rfl, decRun_singleton_eq_next.2 ⟨ev, hb, rfl⟩, hm, hbs⟩
    · rcases ih hbs with ⟨x, y, e, es₁, es₂, -, rfl, hx, he, hy⟩ | hg
      · exact .inl ⟨b :: x, y, e, _, es₂, by simp, rfl, decRun_cons_eq_next.2 ⟨m, ev, es₁, hb, hx, rfl⟩, he, hy⟩
      · exact .inr (by rw [hg, hm, List.length_cons]; omega)

/-- The frame in progress grows by at most the bytes of the run. -/
theorem decRun_consumed_le : ∀ {bs : List Byte} {d g : Session} {es : List Event}, decRun d bs = .next (g, es) →
    g.consumed ≤ d.consumed + bs.length := by
  intro bs
  induction bs with
  | nil => intro d g es h; cases h; exact Nat.le_refl _
  | cons b bs ih =>
    intro d g es h
    obtain ⟨m, ev, es', hb, hbs, -⟩ := decRun_cons_eq_next.1 h
    have hm : m.consumed ≤ d.consumed + 1 := by
      rcases decStep_idle_or_consumed hb with hm | hm
      · rw [Session.consumed_of_idle hm]; exact Nat.zero_le _
      · exact hm.le
    have hg := ih hbs
    rw [List.length_cons]
    omega

/-- Settles O54: a run over 260 bytes that does not pass through `Idle` would have more bytes of one frame than
`Session.consumed_le` allows. -/
theorem idleWithin260Bytes : Obligations.IdleWithin260Bytes := by
  intro d bs hi hd hlen
  obtain ⟨g, es, hrun⟩ := hi.exists_decRun (bs.take 260)
  have hlen' : (bs.take 260).length = 260 := List.length_take_of_le hlen
  rcases decRun_idle_or_consumed hrun with ⟨x, y, e, es₁, es₂, hx, htake, hrunx, he, -⟩ | hg
  · have hprefix : x <+: bs := (htake ▸ List.prefix_append x y).trans (List.take_prefix 260 bs)
    have hle : x.length ≤ 260 := by rw [← hlen', htake, List.length_append]; omega
    refine ⟨x.length, List.length_pos_iff.2 hx, hle, e, es₁, ?_, he⟩
    rw [← List.prefix_iff_eq_take.1 hprefix]; exact hrunx
  · have := g.consumed_le
    have := Session.consumed_pos hd
    omega

/-- In phase `Verify` every byte ends the frame: one event, and `Idle` (R96, R97). -/
theorem Session.Inv.exists_decStep_verify {d : Session} (hi : d.Inv) (hd : d.phase = .verify) (b : Byte) :
    ∃ event, decStep d b = .next (d.setPhase .idle, some event) := by
  by_cases hb : b = d.chk
  · obtain ⟨p, hp, -⟩ := hi.folded (.inr hd)
    rw [hi.idxAtLen hd] at hp
    exact ⟨_, hb ▸ decStep_verify_ok hd hp⟩
  · exact ⟨_, decStep_verify_bad hd hb⟩

/-- The payload bytes still to come lead from `AccumulatePayload` to `Verify`, without an event. -/
theorem decRun_payload_quiet {d : Session} {q : List Byte} (hd : d.phase = .accumulatePayload) (hq : q ≠ [])
    (hl : d.len.toNat = d.idx.toNat + q.length) :
    ∃ g, decRun d q = .next (g, []) ∧ g.phase = .verify ∧ g.idx = d.len := by
  have h := decRun_payload q d [] hd hq hl
  rw [List.append_nil, decRun_nil] at h
  exact ⟨_, h, rfl, rfl⟩

/-- Settles O55: the payload bytes lead to `Verify` (`decRun_payload_quiet`), where the byte after them ends the frame; a
beginning of the payload bytes is not in `Idle`, from which the bytes left could not fill the frame (`decRun_consumed_le`). -/
theorem payloadPhaseEndsExactly : Obligations.PayloadPhaseEndsExactly := by
  intro d bs hi hd hlen
  have hlt := hi.idxBelow hd
  obtain ⟨q, b, rfl⟩ := (List.eq_nil_or_concat' bs).resolve_left (by rintro rfl; simp at hlen)
  have hq : d.len.toNat = d.idx.toNat + q.length := by simp at hlen; omega
  obtain ⟨g, hg, hgp, hgidx⟩ := decRun_payload_quiet hd (by rintro rfl; simp at hq; omega) hq
  refine ⟨fun k hk => ?_, ?_⟩
  · have hk' : k ≤ q.length := by simp at hk; omega
    rw [List.take_append_of_le_length hk']
    obtain ⟨e, he, hrest⟩ := decRun_append_quiet (x := q.take k) (y := q.drop k) (by rwa [List.take_append_drop])
    refine ⟨e, he, fun hidle => ?_⟩
    have hle := decRun_consumed_le hrest
    rw [Session.consumed_of_verify hgp, Session.consumed_of_idle hidle, hgidx, List.length_drop] at hle
    omega
  · have hgi : g.Inv := decRun_inv hi hg
    obtain ⟨event, hev⟩ := hgi.exists_decStep_verify hgp b
    exact ⟨_, event, decRun_append_eq_next.2 ⟨g, [], [event], hg, decRun_singleton_eq_next.2 ⟨_, hev, rfl⟩, rfl⟩, rfl⟩

/-- Only a byte in phase `Verify` gives a `FrameValid`, and the event has the session's length. -/
theorem decStep_frameValid {d e : Session} {b cmd len : Byte} {p : List Byte} {err : Bool}
    (h : decStep d b = .next (e, some (.frameValid cmd len p err))) : d.phase = .verify ∧ d.len = len := by
  rcases decStep_cases h with ⟨-, -, hr⟩ | ⟨-, -, hr⟩ | ⟨-, -, hr⟩ | ⟨-, -, hr⟩ | ⟨-, -, hr⟩ | ⟨-, -, hr⟩ |
    ⟨-, -, -, hr⟩ | ⟨-, hr⟩ | ⟨-, -, hr⟩ | ⟨-, -, hr⟩ | ⟨-, -, hr⟩ | ⟨-, -, hr⟩ | ⟨hp, -, _, -, hr⟩ | ⟨-, -, hr⟩
  all_goals cases hr
  exact ⟨hp, rfl⟩

/-- A session from which a frame's bytes give a `FrameValid` with the frame's length byte on the last of them, and no event
before, is in `Idle`: a frame begun earlier would have more bytes, one begun later fewer. -/
theorem Session.Inv.idle_of_decRun_frameBytes {d g e : Session} {err err' : Bool} {cmd cmd' chk : Byte}
    {p p' : List Byte} (hi : d.Inv) (hp : p.length ≤ 255)
    (hquiet : decRun d (frameBytes err cmd p chk).dropLast = .next (g, []))
    (hrun : decRun d (frameBytes err cmd p chk) = .next (e, [.frameValid cmd' (lengthByte p) p' err'])) :
    d.phase = .idle := by
  have hsplit : (frameBytes err cmd p chk).dropLast ++ [chk] = frameBytes err cmd p chk := by
    rw [frameBytes, List.dropLast_concat]
  have hlen : (frameBytes err cmd p chk).dropLast.length = p.length + 5 := by
    rw [List.length_dropLast, frameBytes_length]; rfl
  have hg : g.phase = .verify ∧ g.len = lengthByte p := by
    rw [← hsplit] at hrun
    obtain ⟨m, es₁, es₂, hm, hlast, hes⟩ := decRun_append_eq_next.1 hrun
    cases hquiet.symm.trans hm
    obtain ⟨ev, hstep, rfl⟩ := decRun_singleton_eq_next.1 hlast
    rw [List.nil_append, eq_comm, Option.toList_eq_singleton_iff] at hes
    exact decStep_frameValid (hes ▸ hstep)
  have hgi : g.Inv := decRun_inv hi hquiet
  have hconsumed : g.consumed = p.length + 5 := by
    rw [Session.consumed_of_verify hg.1, hgi.idxAtLen hg.1, hg.2, lengthByte_toNat hp, Nat.add_comm]
  by_contra hd
  rcases decRun_idle_or_consumed hquiet with ⟨x, y, m, es₁, es₂, hx, hxy, -, hm, hy⟩ | hc
  · have hle := decRun_consumed_le hy
    rw [Session.consumed_of_idle hm] at hle
    rw [hxy, List.length_append] at hlen
    have := List.length_pos_iff.2 hx
    omega
  · have := Session.consumed_pos hd
    omega

/-- What a run from one session in `Idle` gives, the run over the same bytes from any other gives (R33 to R35). -/
theorem decRun_from_idle {d d' e : Session} {bs : List Byte} {es : List Event} (hd : d.phase = .idle)
    (hd' : d'.phase = .idle) (h : decRun d bs = .next (e, es)) :
    ∃ e', decRun d' bs = .next (e', es) ∧ e'.phase = e.phase := by
  obtain ⟨e₁, e', es', h₁, h', hphase⟩ := idleSessionsAreIndistinguishable d d' bs hd hd'
  cases h.symm.trans h₁
  exact ⟨e', h', hphase.symm⟩

/-- Settles O52. Noise that ends in `Idle` without an event lets the frame through (`decRun_wellFormedFrame`). Conversely, from the
reset session, which has the invariant, noise before the frame's event alone ends in `Idle`
(`Session.Inv.idle_of_decRun_frameBytes`), and so it does from every session in `Idle` (`decRun_from_idle`). -/
theorem noiseThenFrameExactly : Obligations.NoiseThenFrameExactly := by
  intro d n f hd hf
  constructor
  · rintro ⟨⟨e, hrun⟩, e', hquiet⟩
    obtain ⟨e, hrun, -⟩ := decRun_from_idle hd (d' := Session.reset) rfl hrun
    obtain ⟨e', hquiet, -⟩ := decRun_from_idle hd (d' := Session.reset) rfl hquiet
    obtain ⟨m, hn, hdrop⟩ := decRun_append_quiet hquiet
    obtain ⟨m', es₁, es₂, hn', hframe, hes⟩ := decRun_append_eq_next.1 hrun
    cases hn.symm.trans hn'
    obtain ⟨err, cmd, p, chk, hp, rfl⟩ := exists_frameBytes_of_wellFormedFrame hf
    rw [List.nil_append, frameEvent_frameBytes] at hes
    have hmi : m.Inv := decRun_inv resetHasInvariant hn
    have hidle := hmi.idle_of_decRun_frameBytes hp hdrop (hes ▸ hframe)
    obtain ⟨e, he, hphase⟩ := decRun_from_idle rfl hd hn
    exact ⟨e, he, hphase.trans hidle⟩
  · rintro ⟨m, hn, hm⟩
    obtain ⟨e, he, -⟩ := decRun_wellFormedFrame hm hf
    obtain ⟨e', he'⟩ := decRun_dropLast_wellFormedFrame hm hf
    exact ⟨⟨e, decRun_append_eq_next.2 ⟨m, [], _, hn, he, rfl⟩⟩, e', decRun_append_eq_next.2 ⟨m, [], [], hn, he', rfl⟩⟩

end Sys2Proof.Machine
end

section
/-! A frame with one changed byte, from `Idle` (R103). -/

namespace Sys2Proof.Machine

/-- A byte sequence of which one byte is changed has another fold (R116). -/
theorem xorFold_set_ne {s : List Byte} {k : Nat} {b : Byte} (hk : k < s.length) (hb : s[k]? ≠ some b) :
    xorFold (s.set k b) ≠ xorFold s := by
  induction s generalizing k with
  | nil => cases hk
  | cons c s ih =>
    cases k with
    | zero =>
      rw [List.set_cons_zero, xorFold_cons, xorFold_cons, Ne, BitVec.xor_left_inj]
      exact fun h => hb (congrArg some h.symm)
    | succ k =>
      rw [List.set_cons_succ, xorFold_cons, xorFold_cons, Ne, BitVec.xor_right_inj]
      exact ih (Nat.lt_of_succ_lt_succ hk) hb

/-- The checksum byte of a frame is right exactly where command id, payload and checksum byte fold to the length byte. -/
theorem eq_xorFold_iff {l cmd chk : Byte} {p : List Byte} :
    chk = xorFold ([l, cmd] ++ p) ↔ xorFold (cmd :: (p ++ [chk])) = l := by
  rw [← List.cons_append, xorFold_snoc, BitVec.xor_comm, xor_eq_iff_left_eq, List.cons_append, xorFold_cons]
  rfl

/-- A byte sequence of at least two bytes is a first byte, the bytes between, and a last byte: command id, payload and checksum
of a frame, where it follows the length byte. -/
theorem exists_eq_cons_concat {t : List Byte} {n : Nat} (h : t.length = n + 2) :
    ∃ cmd p chk, p.length = n ∧ t = cmd :: (p ++ [chk]) := by
  match t, h with
  | cmd :: t, h =>
    obtain ⟨p, chk, rfl⟩ := (List.eq_nil_or_concat' t).resolve_left (by rintro rfl; cases h)
    exact ⟨cmd, p, chk, by simpa using h, rfl⟩

/-- Settles O56: the changed bytes are a frame still, whose fold the change has altered (`xorFold_set_ne`), so that its checksum
byte is wrong (`eq_xorFold_iff`). -/
theorem oneCorruptByteIsReported : Obligations.OneCorruptByteIsReported := by
  intro d f k b hd hf hk hlt hne
  obtain ⟨err, cmd, p, chk, hp, rfl⟩ := exists_frameBytes_of_wellFormedFrame hf
  obtain ⟨j, rfl⟩ := Nat.exists_eq_add_of_le' hk
  obtain ⟨cmd', p', chk', hlen, htail⟩ :=
    exists_eq_cons_concat (t := (cmd :: (p ++ [chk])).set j b) (n := p.length) (by simp)
  have hl : lengthByte p' = lengthByte p := congrArg (BitVec.ofNat 8) hlen
  have hset : (frameBytes err cmd p chk).set (j + 4) b = frameBytes err cmd' p' chk' := by
    rw [frameBytes_eq_cons, frameBytes_eq_cons, hl, ← htail]; rfl
  have hwrong : chk' ≠ xorFold ([lengthByte p', cmd'] ++ p') := by
    have hright := eq_xorFold_iff.1 ((wellFormedFrame_frameBytes_iff hp).1 hf)
    rw [Ne, eq_xorFold_iff, hl, ← htail, ← hright]
    refine xorFold_set_ne ?_ hne
    simp only [frameBytes_length] at hlt
    simp; omega
  have hrun := decRun_frameBytes hd (hlen ▸ hp) err cmd' chk'
  rw [if_neg hwrong] at hrun
  rw [hset]
  exact ⟨_, hrun, rfl⟩

/-- Settles O57: the fold does not reach the third marker byte, so the bytes are the frame of the other marker. -/
theorem markerIsOutsideChecksum : Obligations.MarkerIsOutsideChecksum := by
  intro d cmd p hd hp err
  have hrun := decRun_frameBytes hd hp (!err) cmd (xorFold ([lengthByte p, cmd] ++ p))
  rw [if_pos rfl] at hrun
  exact ⟨_, hrun⟩

end Sys2Proof.Machine
end

section
/-! The transition rules as operations of the machine, the form a byte takes, and a pause. -/

namespace Sys2Proof.Machine

/-- A byte operation has the effect of the decoder step on its byte: the session and the event, nothing else of the machine. -/
theorem exec_of_decStep {i : Instr} {b : Byte} {s : State} {d : Session} {e : Option Event} (hb : i.byte? = some b)
    (h : decStep s.session b = .next (d, e)) :
    exec i s = .next { s with session := d, out := eventResults e } :=
  (exec_eq_consumeByte hb s).trans (afterByte_eq_next.2 ⟨d, e, h, rfl⟩)

/-- Settles O1, by the rule's decoder step (`decStep_idle`). -/
theorem idleHitSeeksSecondMarker : Obligations.IdleHitSeeksSecondMarker :=
  fun _ h => ⟨decodeByte_selected rfl (decide_eq_true h) rfl, exec_of_decStep rfl (decStep_idle h Config.marker1)⟩

/-- Settles O2, by the rule's decoder step (`decStep_idle_miss`). -/
theorem idleMissChangesNothing : Obligations.IdleMissChangesNothing :=
  fun _ _ h hb => ⟨decodeByte_selected (decide_eq_true hb) (decide_eq_true h) rfl,
    exec_of_decStep rfl (decStep_idle_miss h hb)⟩

/-- Settles O3, by the rule's decoder step (`decStep_seekMarker1`). -/
theorem secondMarkerSeeksThird : Obligations.SecondMarkerSeeksThird :=
  fun _ h => ⟨decodeByte_selected rfl (decide_eq_true h) rfl, exec_of_decStep rfl (decStep_seekMarker1 h Config.marker2)⟩

/-- Settles O4: in the second part the second 0x24 is the miss, and no further byte leaves `Idle`. -/
theorem secondMarkerMissReturnsToIdle : Obligations.SecondMarkerMissReturnsToIdle := by
  constructor
  · intro s b h hb
    refine ⟨decodeByte_selected (decide_eq_true hb) (decide_eq_true h) rfl, ?_⟩
    have hmiss := decStep_seekMarker1 h b
    rw [if_neg hb] at hmiss
    exact exec_of_decStep rfl hmiss
  · intro d h
    rw [decRun_cons_quiet (decStep_idle h _), if_pos rfl, decRun_cons_quiet (decStep_seekMarker1 rfl _),
      if_neg (by decide)]
    have hback : (d.setPhase .seekMarker1).setPhase .idle = d := Session.setPhase_of_phase_eq h
    rw [hback, decRun_idle_of_not_mem h (by decide)]

/-- Settles O5, by the rule's decoder step (`decStep_seekMarker2`). -/
theorem normalMarkerClearsErr : Obligations.NormalMarkerClearsErr :=
  fun _ h => ⟨decodeByte_selected rfl (decide_eq_true h) rfl,
    exec_of_decStep rfl (decStep_seekMarker2 h Config.markerReq)⟩

/-- Settles O8, by the rule's decoder step (`decStep_awaitLength`); the two engine operations leave `0 ^ b`. -/
theorem lengthByteStartsFrame : Obligations.LengthByteStartsFrame := by
  intro s b h
  refine ⟨decodeByte_selected rfl (decide_eq_true h) rfl, exec_of_decStep rfl (decStep_awaitLength h b), ?_⟩
  intro u v hu hv
  cases hu
  cases hv
  exact BitVec.zero_xor

/-- Settles O9, by the decoder step in `AwaitCommand`, where bytes of a payload are to come. -/
theorem commandByteBeforePayload : Obligations.CommandByteBeforePayload := by
  intro s b h hl
  refine ⟨decodeByte_selected rfl (decide_eq_true ⟨h, hl⟩) rfl, ?_⟩
  have hstep := decStep_awaitCommand h b
  rw [if_neg hl] at hstep
  exact exec_of_decStep rfl hstep

/-- Settles O10: in the last part the fold of a length byte 0 is 0. -/
theorem commandByteOfEmptyFrame : Obligations.CommandByteOfEmptyFrame := by
  intro s b h hl
  refine ⟨decodeByte_selected rfl (decide_eq_true ⟨h, hl⟩) rfl, ?_, fun hi => ?_⟩
  · have hstep := decStep_awaitCommand h b
    rw [if_pos hl] at hstep
    exact exec_of_decStep rfl hstep
  · obtain ⟨-, hchk⟩ := Session.Inv.afterLength hi h
    rw [hchk, hl]
    exact BitVec.zero_xor

/-- Settles O11, by the decoder step in `AccumulatePayload`, before the last payload byte. -/
theorem payloadByteIsStored : Obligations.PayloadByteIsStored := by
  intro s b h hl
  have hlt : s.session.idx.toNat < s.session.len.toNat := by omega
  refine ⟨decodeByte_selected rfl (decide_eq_true ⟨h, hl⟩) rfl, idx_succ_toNat hlt,
    s.session.buf.store s.session.payloadAddr b, ?_, fun a => Memory.load_store _ _ a b⟩
  have hstep := decStep_accumulatePayload h hlt b
  rw [if_neg hl.ne, Session.setPhase_of_phase_eq (d := s.session.takePayload b) h] at hstep
  exact exec_of_decStep rfl hstep

/-- Settles O12, by the decoder step in `AccumulatePayload`, on the last payload byte. -/
theorem lastPayloadByteIsStored : Obligations.LastPayloadByteIsStored := by
  intro s b h hl
  have hlt : s.session.idx.toNat < s.session.len.toNat := by omega
  refine ⟨decodeByte_selected rfl (decide_eq_true ⟨h, hl⟩) rfl,
    BitVec.eq_of_toNat_eq ((idx_succ_toNat hlt).trans hl),
    s.session.buf.store s.session.payloadAddr b, ?_, fun a => Memory.load_store _ _ a b⟩
  have hstep := decStep_accumulatePayload h hlt b
  rw [if_pos hl] at hstep
  exact exec_of_decStep rfl hstep

/-- Settles O13, by the decoder step on a match, and the laws of a read of several bytes. -/
theorem matchDeliversFrame : Obligations.MatchDeliversFrame := by
  intro s p h hread
  refine ⟨decodeByte_selected rfl (decide_eq_true ⟨h, rfl⟩) rfl, exec_of_decStep rfl (decStep_verify_ok h hread),
    Memory.read_length hread, fun k hk => ?_⟩
  simpa using Memory.getElem?_of_read hread k hk

/-- Settles O14, by the decoder step on a mismatch. -/
theorem mismatchReportsChecksumError : Obligations.MismatchReportsChecksumError :=
  fun _ _ h hb => ⟨decodeByte_selected rfl (decide_eq_true ⟨h, hb⟩) rfl, exec_of_decStep rfl (decStep_verify_bad h hb)⟩

/-- A byte is refused exactly in the one session in which no rule applies to it, whatever the byte (R25, R80). -/
theorem decStep_eq_refused_iff {d : Session} {b : Byte} :
    decStep d b = .refused .noTransition ↔ d.phase = .accumulatePayload ∧ d.len.toNat ≤ d.idx.toNat := by
  refine ⟨fun h => (decStep_refused h).2, fun ⟨hp, hle⟩ => ?_⟩
  rw [decStep, hp]
  dsimp only
  rw [if_neg (by rw [Session.moreFollow_iff]; omega), if_neg (by rw [Session.lastOne_iff]; omega)]

/-- A byte's step of the machine is refused where the decoder's is. -/
theorem afterByte_eq_refused {s : State} {o : Answer DecOut} {r : Refusal} :
    s.afterByte o = .refused r ↔ o = .refused r := by
  cases o <;> simp [State.afterByte]

/-- A byte's step of the machine faults where the decoder's does. -/
theorem afterByte_eq_fault {s : State} {o : Answer DecOut} {r : Fault} :
    s.afterByte o = .fault r ↔ o = .fault r := by
  cases o <;> simp [State.afterByte]

/-- Settles O30: every form is `BYTE` of its byte (`exec_eq_consumeByte`), and both forms of ENCODE are `applyEncode`. -/
theorem sessionSelectsTheForm : Obligations.SessionSelectsTheForm := by
  refine ⟨fun i j b s hb hj => ?_, fun i b s hb => ?_, fun i b s hb => ?_, fun cmd p s => ?_⟩
  · rw [exec_eq_consumeByte hb, exec_eq_consumeByte (decodeByte_byte hj)]
  · rw [exec_eq_consumeByte hb, consumeByte, afterByte_eq_refused, decStep_eq_refused_iff]
  · rw [exec_eq_consumeByte hb, consumeByte, afterByte_eq_fault, decStep_fault]
  · rw [exec_encOk, exec_encRej]

/-- Settles O39: there is nothing to fetch, so the step is a pause. -/
theorem pauseChangesNothing : Obligations.PauseChangesNothing := by
  intro s h
  rw [step, fetch_of_nil h]
  rfl

end Sys2Proof.Machine
end

section
/-! The fold's parity and independence of order, and the engine's operations on `chk` (R111 to R116). -/

namespace Sys2Proof.Machine

/-- Bit `j` of a fold is the parity of bit `j` of the bytes (R111), by induction from the end: a byte with bit `j` set adds one
to the count and flips the fold's bit. -/
theorem xorFold_getLsbD (s : List Byte) (j : Nat) :
    (xorFold s).getLsbD j = decide (s.countP (fun b => b.getLsbD j) % 2 = 1) := by
  induction s using List.reverseRecOn with
  | nil => simp
  | append_singleton s b ih =>
    rw [xorFold_snoc, BitVec.getLsbD_xor, ih, List.countP_append, List.countP_singleton]
    cases b.getLsbD j
    · simp
    · have flips (n : Nat) : decide ((n + 1) % 2 = 1) = !decide (n % 2 = 1) := by
        rw [← decide_not, decide_eq_decide]
        omega
      rw [if_pos rfl, flips, Bool.xor_true]

/-- Settles O16: the equations are the fold's laws, the parity is `xorFold_getLsbD`, and the frame's checksum byte is the one
`wellFormedFrame_frameBytes_iff` asks for. -/
theorem xorFoldIsBitwiseParity : Obligations.XorFoldIsBitwiseParity :=
  ⟨xorFold_nil, xorFold_snoc, fun s j _ => xorFold_getLsbD s j,
    fun _ _ _ hp => (wellFormedFrame_frameBytes_iff hp).2 rfl⟩

/-- Settles O17: two bytes folded in either order leave the same accumulator (R115). -/
theorem xorFoldIgnoresOrder : Obligations.XorFoldIgnoresOrder := by
  intro s t h
  have comm : RightCommutative engineFold :=
    ⟨fun acc b c => by simp only [engineFold_eq, BitVec.xor_assoc, BitVec.xor_comm b c]⟩
  exact h.foldl_eq engineClear

/-- Settles O18: the fold without the changed byte is the same, so the two folds differ as the two bytes do
(`xorFold_set_ne`). -/
theorem xorFoldDetectsOneChange : Obligations.XorFoldDetectsOneChange :=
  fun _ _ _ hk hb => xorFold_set_ne hk hb

/-- Settles O15: each operation by its own effect; two bytes are equal exactly where their XOR is 0. -/
theorem engineOperationsOnChk : Obligations.EngineOperationsOnChk := by
  intro s b
  refine ⟨rfl, rfl, rfl, ?_⟩
  exact decide_eq_true_iff.trans (eq_comm.trans BitVec.xor_eq_zero_iff.symm)

end Sys2Proof.Machine
end

section
/-! The encoder: what its two forms do, the frames it gives, and their round trip through the decoder (R120 to R128). -/

namespace Sys2Proof.Machine

/-- The bytes ENCODE emits are those of the normal frame whose checksum byte is the fold of length, command id and payload
(R121, R125). -/
theorem encodeBytes_eq_frameBytes (cmd : Byte) (p : List Byte) :
    encodeBytes cmd p = frameBytes false cmd p (xorFold ([lengthByte p, cmd] ++ p)) := by
  rw [encodeBytes, encodeChecksum_eq, frameBytes_eq_cons]
  rfl

/-- So they are a well-formed frame where the payload fits (R127). -/
theorem wellFormedFrame_encodeBytes {p : List Byte} (hp : p.length ≤ 255) (cmd : Byte) :
    wellFormedFrame (encodeBytes cmd p) = true := by
  rw [encodeBytes_eq_frameBytes]
  exact (wellFormedFrame_frameBytes_iff hp).2 rfl

/-- There is a frame exactly where the payload fits (R121, R124). -/
theorem encodeFrame_eq_some_iff {cmd : Byte} {p f : List Byte} :
    encodeFrame cmd p = some f ↔ p.length ≤ 255 ∧ f = encodeBytes cmd p := by
  rw [encodeFrame, Option.ite_none_right_eq_some, Option.some.injEq, eq_comm (a := f)]

/-- A step whose first request is an ENCODE that is accepted: the frame goes to the egress stream and to the results. -/
theorem step_of_enc {s : State} {cmd : Byte} {p : List Byte} {q : List Request} (hq : s.pending = .enc cmd p :: q)
    (hp : p.length ≤ 255) :
    step s = .next (acceptEncode cmd p (s.setPending q)).record := by
  refine (step_eq_next_of_run (more := []) hq (if_pos hp)).2 ⟨_, ?_, rfl⟩
  rw [exec_encOk]
  exact if_pos hp

/-- Settles O49: one step for the ENCODE (`step_of_enc`), then the decoder's run over the frame it emitted
(`decRun_wellFormedFrame`), one byte a step (`core_run_of_feeds`). -/
theorem encodeThenDecodeRoundTrip : Obligations.EncodeThenDecodeRoundTrip := by
  intro s cmd p rest hs hp hq
  obtain ⟨e, he, hidle⟩ := decRun_wellFormedFrame hs (wellFormedFrame_encodeBytes hp cmd)
  have hfeeds : (acceptEncode cmd p (s.setPending ((encodeBytes cmd p).map .rx ++ rest))).record.feeds
      (encodeBytes cmd p) rest := rfl
  obtain ⟨t, ht, hsess, htrace, hegress, hpend⟩ := core_run_of_feeds _ hfeeds he
  have hlen : (encodeBytes cmd p).length = p.length + 6 := by rw [encodeBytes_eq_frameBytes, frameBytes_length]
  have hevent : frameEvent (encodeBytes cmd p) = .frameValid cmd (lengthByte p) p false := by
    rw [encodeBytes_eq_frameBytes, frameEvent_frameBytes]
  rw [hlen] at ht
  refine ⟨t, (core_run_of_step _ (step_of_enc hq hp)).trans ht, ?_, hsess ▸ hidle, hpend, hegress⟩
  rw [htrace, hevent]
  exact List.append_assoc ..

/-- Settles O50: such a frame is the bytes of a normal frame (`encodeBytes_eq_frameBytes`), so the functions of R67 read the
operands back and its third byte is not 0x21. -/
theorem encodedFramesAreWellFormed : Obligations.EncodedFramesAreWellFormed := by
  intro cmd p f h
  obtain ⟨hp, rfl⟩ := encodeFrame_eq_some_iff.1 h
  refine ⟨wellFormedFrame_encodeBytes hp cmd, ?_⟩
  rw [encodeBytes_eq_frameBytes]
  refine ⟨frameCmd_frameBytes .., framePayload_frameBytes .., frameErr_frameBytes .., ?_⟩
  show [Config.marker1, Config.marker2, Config.markerReq] ≠ _
  decide

/-- Settles O19: the accepted form of `applyEncode`, with the checksum byte as a fold (`encodeChecksum_eq`). -/
theorem encodeEmitsFrame : Obligations.EncodeEmitsFrame := by
  intro s cmd p hp
  refine ⟨lengthByte p, lengthByte_toNat hp, by simp, ?_⟩
  rw [exec_encOk]
  exact if_pos hp

/-- Settles O20: the rejected form of `applyEncode`. -/
theorem overlongEncodeIsRejected : Obligations.OverlongEncodeIsRejected := by
  intro s cmd p hp
  have hfits : ¬ p.length ≤ Config.maxPayload := Nat.not_le.2 hp
  rw [exec_encRej]
  exact ⟨if_neg hfits, if_neg hfits⟩

end Sys2Proof.Machine
end

section
/-! The registry's numeric fields and the attitude message read back from their bytes (R137, R139, R141). -/

namespace Sys2Proof.Machine

@[simp] theorem length_unsignedBytes (k u : Nat) : (unsignedBytes k u).length = k := by
  induction k generalizing u with
  | zero => rfl
  | succ k ih => exact congrArg (· + 1) (ih (u / 256))

@[simp] theorem length_signedBytes (k : Nat) (v : Int) : (signedBytes k v).length = k :=
  length_unsignedBytes k _

/-- The `k` bytes of a value are its digits to the base 256, so they read back as the value modulo `2^(8k)`. -/
theorem fieldUnsigned_unsignedBytes (k u : Nat) : fieldUnsigned (unsignedBytes k u) = u % 2 ^ (8 * k) := by
  induction k generalizing u with
  | zero => simp [unsignedBytes, fieldUnsigned, Nat.mod_one]
  | succ k ih =>
    calc fieldUnsigned (unsignedBytes (k + 1) u)
      _ = u % 2 ^ 8 + 256 * (u / 256 % 2 ^ (8 * k)) := by
        rw [unsignedBytes, fieldUnsigned, ih, BitVec.toNat_ofNat]
      _ = u % (256 * 2 ^ (8 * k)) := Nat.mod_mul.symm
      _ = u % 2 ^ (8 * (k + 1)) := by rw [Nat.mul_succ, Nat.pow_add, Nat.mul_comm]

/-- As an unsigned value, the bytes of a signed one read as its residue modulo `2^(8k)`. -/
theorem fieldUnsigned_signedBytes (k : Nat) (v : Int) :
    (fieldUnsigned (signedBytes k v) : Int) = v % 2 ^ (8 * k) := by
  have hpos : (0 : Int) < 2 ^ (8 * k) := by positivity
  have hnonneg := Int.emod_nonneg v hpos.ne'
  have hlt : (v % 2 ^ (8 * k)).toNat < 2 ^ (8 * k) := by
    rw [Int.toNat_lt hnonneg]
    exact_mod_cast Int.emod_lt_of_pos v hpos
  rw [signedBytes, fieldUnsigned_unsignedBytes, Nat.mod_eq_of_lt hlt, Int.toNat_of_nonneg hnonneg]

/-- Two's complement reads them as the balanced residue modulo `2^(8k)`: `fieldSigned` subtracts `2^(8k)` from a residue
exactly where `Int.bmod` does. -/
theorem fieldSigned_signedBytes_eq_bmod (k : Nat) (v : Int) :
    fieldSigned (signedBytes k v) = v.bmod (2 ^ (8 * k)) := by
  have hu := fieldUnsigned_signedBytes k v
  unfold fieldSigned Int.bmod
  rw [length_signedBytes]
  push_cast
  rw [← hu]
  have hhalf : 2 * fieldUnsigned (signedBytes k v) < 2 ^ (8 * k) ↔
      (fieldUnsigned (signedBytes k v) : Int) < (2 ^ (8 * k) + 1) / 2 := by
    zify
    generalize (2 : Int) ^ (8 * k) = m
    omega
  exact if_congr hhalf rfl rfl

/-- So the bytes of a signed value in range read back as that value, for every width but 0. -/
theorem fieldSigned_signedBytes {k : Nat} {v : Int} (hk : 0 < k) (hlo : -2 ^ (8 * k - 1) ≤ v)
    (hhi : v < 2 ^ (8 * k - 1)) : fieldSigned (signedBytes k v) = v := by
  have hdouble : (2 : Int) ^ (8 * k) = 2 * 2 ^ (8 * k - 1) := by
    rw [← pow_succ', Nat.sub_add_cancel (by omega)]
  rw [fieldSigned_signedBytes_eq_bmod]
  apply Int.bmod_eq_of_le_mul_two <;> push_cast <;> omega

/-- Settles O58: the readings of a field's bytes at any width (`fieldSigned_signedBytes`, `fieldUnsigned_unsignedBytes`). -/
theorem fieldBytesReadBack : Obligations.FieldBytesReadBack := by
  intro k hk
  refine ⟨fun v hlo hhi => ⟨length_signedBytes k v, fieldSigned_signedBytes (by omega) hlo hhi⟩, fun u hu => ?_⟩
  rw [fieldUnsigned_unsignedBytes, Nat.mod_eq_of_lt hu]

@[simp] theorem Attitude.length_payload (a : Attitude) : a.payload.length = 6 := by
  simp [Attitude.payload]

/-- The three fields of an attitude payload are cut at the bytes where they were joined (R141). -/
theorem Attitude.ofPayload_payload (a : Attitude) : Attitude.ofPayload a.payload =
    some ⟨fieldSigned (signedBytes 2 a.roll), fieldSigned (signedBytes 2 a.pitch), fieldSigned (signedBytes 2 a.yaw)⟩ := by
  rw [Attitude.ofPayload, if_pos a.length_payload]
  rfl

/-- The event of an attitude frame with a clear error flag goes to the registry and is read from its payload (R139, R151). -/
theorem ofDelivery_attitude (len : Byte) (p : List Byte) :
    Attitude.ofDelivery (deliver (.frameValid attitudeCmd len p false)) = Attitude.ofPayload p := by
  simp [deliver, Attitude.ofDelivery]

/-- Settles O59: the event is read from its payload (`ofDelivery_attitude`), whose three fields read back
(`fieldSigned_signedBytes` at width 2); no other length passes the test of R141. -/
theorem attitudeMessageReadsBack : Obligations.AttitudeMessageReadsBack := by
  refine ⟨fun a hr hr' hp hp' hy hy' => ⟨a.length_payload, ?_⟩, fun p hp => ?_⟩
  · rw [ofDelivery_attitude, Attitude.ofPayload_payload, fieldSigned_signedBytes two_pos hr hr',
      fieldSigned_signedBytes two_pos hp hp', fieldSigned_signedBytes two_pos hy hy']
  · rw [ofDelivery_attitude]
    exact if_neg hp

end Sys2Proof.Machine
end

section
/-! The events as the consumer reads them and the ports show them, and which bytes raise one (60_exceptions.md). -/

namespace Sys2Proof.Machine

/-- Where a step hands out one event and nothing else, the ports show that event (R184). -/
theorem State.lastEvent_of_out {s : State} {e : Event} (h : s.out = [.event e]) : s.lastEvent = some e := by
  rw [State.lastEvent, h]
  rfl

/-- An event's code is 1 or 2 (R150). -/
theorem eventKind_eq_one_or_two (e : Event) : eventKind e = 1 ∨ eventKind e = 2 := by
  cases e with
  | frameValid => exact .inl rfl
  | checksumError => exact .inr rfl

/-- `ev_kind` shows the code of the event handed out. -/
theorem State.evKind_of_out {s : State} {e : Event} (h : s.out = [.event e]) : s.evKind = eventKind e := by
  rw [State.evKind, State.lastEvent_of_out h]

/-- The ports of a step that hands out a `FrameValid`, field by field (R184). -/
theorem State.ports_of_frameValid {s : State} {cmd len : Byte} {p : List Byte} {err : Bool}
    (h : s.out = [.event (.frameValid cmd len p err)]) :
    s.evKind = 1 ∧ s.evErr = some err ∧ s.evCmd = some cmd ∧ s.evPayload = some p := by
  have hlast := State.lastEvent_of_out h
  refine ⟨State.evKind_of_out h, ?_, ?_, ?_⟩
  · rw [State.evErr, hlast]
  · rw [State.evCmd, hlast]
  · rw [State.evPayload, hlast]

/-- A frame with the right checksum byte, fed from `Idle`, hands out its `FrameValid` alone (R99). -/
theorem exec_goodFrame_from_idle {s : State} {p : List Byte} (hs : s.session.phase = .idle) (hp : p.length ≤ 255)
    (err : Bool) (cmd : Byte) :
    ∃ t, exec (frameInstr err cmd p (xorFold ([lengthByte p, cmd] ++ p))) s = .next t ∧
      t.out = [.event (.frameValid cmd (lengthByte p) p err)] := by
  obtain ⟨m, hexec, -⟩ := exec_frameInstr_from_idle hs hp err cmd (xorFold ([lengthByte p, cmd] ++ p))
  rw [if_pos rfl] at hexec
  exact ⟨_, hexec, rfl⟩

/-- Settles O25: either good frame hands out its `FrameValid` (`exec_goodFrame_from_idle`), which the ports show
(`State.ports_of_frameValid`) and whose error flag decides how `deliver` reads it. -/
theorem errorFrameReadsAsPeerError : Obligations.ErrorFrameReadsAsPeerError := by
  intro s cmd p hs hp
  obtain ⟨t, ht, hout⟩ := exec_goodFrame_from_idle hs hp true cmd
  obtain ⟨u, hu, hout'⟩ := exec_goodFrame_from_idle hs hp false cmd
  obtain ⟨hkind, herr, hcmd, hpayload⟩ := State.ports_of_frameValid hout
  obtain ⟨hkind', herr', -, -⟩ := State.ports_of_frameValid hout'
  exact ⟨t, u, _, _, ht, hout, rfl, hkind, herr, hcmd, hpayload, hu, hout', rfl, hkind', herr'⟩

/-- A byte raises an event in phase `Verify` and in no other phase (R156); where it does, the event's delivery is the whole
step (R159). -/
theorem decStep_quiet_or_raiseEvent {d : Session} {b : Byte} {r : DecOut} (h : decStep d b = .next r) :
    (d.phase ≠ .verify ∧ r.2 = none) ∨ (d.phase = .verify ∧ ∃ e, r = raiseEvent e d) := by
  rcases decStep_cases h with ⟨hp, -, rfl⟩ | ⟨hp, -, rfl⟩ | ⟨hp, -, rfl⟩ | ⟨hp, -, rfl⟩ | ⟨hp, -, rfl⟩ |
    ⟨hp, -, rfl⟩ | ⟨hp, -, -, rfl⟩ | ⟨hp, rfl⟩ | ⟨hp, -, rfl⟩ | ⟨hp, -, rfl⟩ | ⟨hp, -, rfl⟩ | ⟨hp, -, rfl⟩ |
    ⟨hp, -, p, -, rfl⟩ | ⟨hp, -, rfl⟩
  iterate 12 exact .inl ⟨by simp [hp], rfl⟩
  · exact .inr ⟨hp, .frameValid d.cmd d.len p d.err, rfl⟩
  · exact .inr ⟨hp, .checksumError d.cmd, rfl⟩

/-- Settles O32: the operation is `BYTE` of its byte (`exec_eq_consumeByte`), and the decoder's step is quiet outside `Verify`
and the delivery of one event in it (`decStep_quiet_or_raiseEvent`). -/
theorem eventsComeFromVerifyOnly : Obligations.EventsComeFromVerifyOnly := by
  intro i b s t hb h
  rw [exec_eq_consumeByte hb] at h
  obtain ⟨d, ev, hd, rfl⟩ := afterByte_eq_next.1 h
  rcases decStep_quiet_or_raiseEvent hd with ⟨hp, hquiet⟩ | ⟨hp, e, hraise⟩
  · exact ⟨fun _ => congrArg eventResults hquiet, fun hp' => absurd hp' hp⟩
  · cases hraise
    refine ⟨fun hp' => absurd hp hp', fun _ => ⟨rfl, e, rfl, ?_⟩⟩
    rw [State.evKind_of_out (e := e) rfl]
    exact eventKind_eq_one_or_two e

end Sys2Proof.Machine
end

section
/-! RESET, and what a step adds to the results of the run and to the egress stream (70_reset_and_hazards.md). -/

namespace Sys2Proof.Machine

/-- RESET replaces the session and hands out nothing (R180). -/
theorem exec_reset (s : State) : exec .reset s = .next { s with session := Session.reset, out := [] } := rfl

/-- Settles O21: in every state the session of `exec_reset` is the one the reset state holds (`stateAfterReset`). -/
theorem resetCreatesSession : Obligations.ResetCreatesSession := by
  intro s
  obtain ⟨hphase, herr, hlen, hcmd, hchk, hidx, hbuf, -⟩ := stateAfterReset
  exact ⟨Session.reset, exec_reset s, hphase, herr, hlen, hcmd, hchk, hidx, hbuf⟩

/-- A step whose first request asks for RESET: the request is gone, and the results of the run stay as they are. -/
theorem step_of_reset {s : State} {r : Request} {rest : List Request} (hp : s.pending = r :: rest)
    (hd : decodeRequest s.session.view r = .run .reset []) :
    step s = .next { s with session := Session.reset, pending := rest, out := [] } := by
  rw [step_of_run hp hd, exec_reset]
  simp [State.record, State.setPending]

/-- Settles O40: both requests decode to RESET, and the step keeps nothing else of its request (`step_of_reset`). -/
theorem resetWinsOverByte : Obligations.ResetWinsOverByte := by
  intro s b rest hp
  have hboth := step_of_reset hp rfl
  exact ⟨hboth.trans (step_of_reset (s := s.setPending (.rst :: rest)) rfl rfl).symm, hboth⟩

/-- The tx port carries no byte where no frame is handed out (R184). -/
theorem State.txData_eq_nil {s : State} (h : ∀ f, Result.encoded f ∉ s.out) : s.txData = [] := by
  refine List.flatMap_eq_nil_iff.2 fun r hr => ?_
  cases r with
  | encoded f => exact absurd hr (h f)
  | event | payloadTooLarge | compared => rfl

/-- Where one frame is handed out and nothing else, the tx port carries its bytes. -/
theorem State.txData_of_encoded {s : State} {f : List Byte} (h : s.out = [.encoded f]) : s.txData = f := by
  rw [State.txData, h]
  exact List.flatMap_singleton ..

/-- An operation leaves the results of the run, and adds to the egress stream what its tx port carries: the frame of an
accepted ENCODE, and nothing for every other operation (R41, R53). -/
theorem exec_trace_egress {i : Instr} {s t : State} (h : exec i s = .next t) :
    t.trace = s.trace ∧ t.egress = s.egress ++ t.txData := by
  have silent (htrace : t.trace = s.trace) (hegress : t.egress = s.egress) (hout : ∀ f, Result.encoded f ∉ t.out) :
      t.trace = s.trace ∧ t.egress = s.egress ++ t.txData :=
    ⟨htrace, by rw [hegress, State.txData_eq_nil hout, List.append_nil]⟩
  have bytes {bs : List Byte} (h : consumeBytes bs s = .next t) :
      t.trace = s.trace ∧ t.egress = s.egress ++ t.txData := by
    obtain ⟨d, es, -, rfl⟩ := consumeBytes_eq_next.1 h
    exact silent rfl rfl (by simp)
  rcases exec_cases h with ⟨b, -, h⟩ | ⟨cmd, p, chk, ⟨-, h⟩ | ⟨-, h⟩⟩ | ⟨-, rfl⟩ | ⟨b, -, rfl⟩ | ⟨b, -, rfl⟩ |
    ⟨cmd, p, -, ⟨-, rfl⟩ | ⟨-, rfl⟩⟩ | ⟨-, rfl⟩
  · obtain ⟨d, e, -, rfl⟩ := afterByte_eq_next.1 h
    exact silent rfl rfl (by simp [eventResults_eq_map])
  · exact bytes h
  · exact bytes h
  · exact silent rfl rfl (by simp)
  · exact silent rfl rfl (by simp)
  · exact silent rfl rfl (by simp)
  · exact ⟨rfl, by rw [State.txData_of_encoded rfl]; rfl⟩
  · exact silent rfl rfl (by simp [rejectEncode])
  · exact silent rfl rfl (by simp)

/-- Settles O42: a pause hands out nothing; an operation extends the egress stream by its tx port (`exec_trace_egress`), and the
step then records what it hands out. -/
theorem resultsOnlyGrow : Obligations.ResultsOnlyGrow := by
  intro s t h
  rcases step_cases h with ⟨q, -, rfl⟩ | ⟨r, rest, i, more, u, -, -, hu, rfl⟩
  · exact ⟨(List.append_nil _).symm, (List.append_nil _).symm⟩
  · obtain ⟨htrace, hegress⟩ := exec_trace_egress hu
    exact ⟨congrArg (· ++ u.out) htrace, hegress⟩

end Sys2Proof.Machine
end

section
/-! The third byte of the marker: the error marker's, and every byte that is neither marker's (40_decoder_fsm.md section 2). -/

namespace Sys2Proof.Machine

/-- A decoder step in phase `SeekMarker2` on a byte that is the third of neither marker (R90). -/
theorem decStep_seekMarker2_miss {d : Session} {b : Byte} (h : d.phase = .seekMarker2) (hreq : b ≠ Config.markerReq)
    (herr : b ≠ Config.markerErr) : decStep d b = .next (d.setPhase .idle, none) := by
  rw [decStep_seekMarker2 h, if_neg hreq, if_neg herr]

/-- Settles O6, by the rule's decoder step (`decStep_seekMarker2`). -/
theorem errorMarkerSetsErr : Obligations.ErrorMarkerSetsErr :=
  fun _ h => ⟨decodeByte_selected rfl (decide_eq_true h) rfl,
    exec_of_decStep rfl (decStep_seekMarker2 h Config.markerErr)⟩

/-- Settles O7, by the rule's decoder step (`decStep_seekMarker2_miss`). -/
theorem thirdMarkerMissReturnsToIdle : Obligations.ThirdMarkerMissReturnsToIdle :=
  fun _ _ h hreq herr => ⟨decodeByte_selected (decide_eq_true ⟨hreq, herr⟩) (decide_eq_true h) rfl,
    exec_of_decStep rfl (decStep_seekMarker2_miss h hreq herr)⟩

end Sys2Proof.Machine
end
